-- ==== Sys2Proof/Word.lean ====
section
/-! DEFINITION. The widths of the block's data: 8-bit symbols, 32-bit words, the 64-bit TIME word, and bit strings
(00_scope.md R6, R8, R9). -/

namespace Sys2Proof

/-- A buffer element (00_scope.md R9). -/
abbrev Sym := BitVec 8

/-- A symbol sequence: its length together with its elements (10_state.md R20). -/
abbrev Syms := List Sym

/-- COMMAND and STATUS are 32-bit unsigned words (00_scope.md R8). -/
abbrev Word := BitVec 32

/-- TIME is a 64-bit unsigned word (00_scope.md R8). -/
abbrev DWord := BitVec 64

/-- A bit string; index 0 is the most significant, first-transmitted bit (00_scope.md R6). -/
abbrev Bits := List Bool

end Sys2Proof
end

