-- ==== Sys2Proof/Syntax.lean ====
section
/-! DEFINITION. The command set: "exactly the six commands of rule R71" (30_encoding.md R82). -/

namespace Sys2Proof

/-- One constructor per row of the opcode table (30_encoding.md R71). The operands are register contents, not fields
of the word (R76, R78); the only field a command carries is the timing-report request T, and only ENCODE and DECODE
may carry it (R72). -/
inductive Instr where
  /-- CONFIG (41_codec.md R123). -/
  | config
  /-- ENCODE, or ENCODE.T (41_codec.md R126). -/
  | encode (t : Bool)
  /-- DECODE, or DECODE.T (41_codec.md R129). -/
  | decode (t : Bool)
  /-- DIVIDE (40_divider.md R110). -/
  | divide
  /-- CFG_CRC6 (42_presets.md R150). -/
  | cfgCrc6
  /-- CFG_CRC16 (42_presets.md R151). -/
  | cfgCrc16
deriving DecidableEq, Repr

end Sys2Proof
end

