-- ==== Sys2Proof/WellFormed.lean ====
section
/-! DEFINITION. When the fields of a command word, and an instruction, are well formed (30_encoding.md R70 to R75). -/

namespace Sys2Proof

/-- The fields of format CMD (30_encoding.md R70). -/
structure CmdFields where
  /-- Bits [3:0], the operation selector. -/
  op : BitVec 4
  /-- Bit [4], the timing-report request. -/
  t : Bool
  /-- Bits [31:5], reserved. -/
  rsvd : BitVec 27
deriving DecidableEq, Repr

/-- RSVD must be zero (30_encoding.md R73). -/
def CmdFields.rsvdOk (f : CmdFields) : Bool := f.rsvd == 0

/-- OP 0x0 and 0x7 to 0xF are reserved (30_encoding.md R71). -/
def CmdFields.opOk (f : CmdFields) : Bool := decide (1 ≤ f.op.toNat ∧ f.op.toNat ≤ 6)

/-- T = 1 is allowed on ENCODE (0x2) and DECODE (0x3) only (30_encoding.md R72). -/
def CmdFields.timingOk (f : CmdFields) : Bool := !f.t || f.op == 2 || f.op == 3

/-- The fields of a legal word: "OP = 0x0, OP = 0x7 to 0xF, T = 1 with OP other than 0x2 or 0x3, and any non-zero RSVD"
are what is illegal (30_encoding.md R75). -/
def CmdFields.wf (f : CmdFields) : Bool := f.rsvdOk && f.opOk && f.timingOk

/-- The fields an instruction stands for, from the table of 30_encoding.md R71. -/
def Instr.fields : Instr → CmdFields
  | .config => ⟨1, false, 0⟩
  | .encode t => ⟨2, t, 0⟩
  | .decode t => ⟨3, t, 0⟩
  | .divide => ⟨4, false, 0⟩
  | .cfgCrc6 => ⟨5, false, 0⟩
  | .cfgCrc16 => ⟨6, false, 0⟩

/-- An instruction is well formed when the fields it stands for are. Since T stands only on the constructors that may
carry it, every instruction is (Sys2Proof.Laws.LegalFields). -/
def Instr.wf (i : Instr) : Bool := i.fields.wf

end Sys2Proof
end

