-- ==== Sys2Proof/Decode.lean ====
section
/-! DEFINITION. The decoder, total over all words of 32 bits (30_encoding.md R74), and the encoder. -/

namespace Sys2Proof

/-- Why a word decodes to ILLEGAL (30_encoding.md R75). The machine treats all of them alike. -/
inductive Illegal where
  /-- A bit of RSVD is set (R73). -/
  | reservedBits (rsvd : BitVec 27)
  /-- OP is 0x0 or 0x7 to 0xF (R71). -/
  | reservedOp (op : BitVec 4)
  /-- T = 1 on a command that takes no timing report (R72). -/
  | timingNotAllowed (op : BitVec 4)
deriving DecidableEq, Repr

/-- What a word decodes to (30_encoding.md R74). -/
inductive Decoded where
  /-- A command of the set. -/
  | cmd (i : Instr)
  /-- ILLEGAL, with the reason. -/
  | illegal (why : Illegal)
deriving DecidableEq, Repr

/-- The instruction, where there is one. -/
def Decoded.instr? : Decoded → Option Instr
  | .cmd i => some i
  | .illegal _ => none

/-- The fields of a word (30_encoding.md R70). -/
def unpack (w : Word) : CmdFields where
  op := w.extractLsb' 0 4
  t := w.getLsbD 4
  rsvd := w.extractLsb' 5 27

/-- The word of the given fields (30_encoding.md R70). -/
def pack (f : CmdFields) : Word := f.rsvd ++ BitVec.ofBool f.t ++ f.op

/-- A command that takes no timing report: legal with T = 0 only (30_encoding.md R72). -/
def untimed (f : CmdFields) (i : Instr) : Decoded :=
  if f.t then .illegal (.timingNotAllowed f.op) else .cmd i

/-- The case analysis on OP of `decodeCmd` (30_encoding.md R74). -/
def decodeFields (f : CmdFields) : Decoded :=
  if f.rsvd ≠ 0 then .illegal (.reservedBits f.rsvd)
  else
    match f.op.toNat with
    | 1 => untimed f .config
    | 2 => .cmd (.encode f.t)
    | 3 => .cmd (.decode f.t)
    | 4 => untimed f .divide
    | 5 => untimed f .cfgCrc6
    | 6 => untimed f .cfgCrc16
    | _ => .illegal (.reservedOp f.op)

/-- `decodeCmd`: "Decoding is a total function over all 2^32 words" (30_encoding.md R74). -/
def decodeCmd (w : Word) : Decoded := decodeFields (unpack w)

/-- The word of an instruction, from the encoding table of 30_encoding.md R71. -/
def encode (i : Instr) : Word := pack i.fields

/-- The instruction the decoder reads from the low nbits bits of w. A command is "exactly one 32-bit word" with no byte
view (30_encoding.md R76, 20_memory.md R55; log 11), so bits above bit 31 make it no command. -/
def decodeTableWord (nbits w : Nat) : Option Instr :=
  let v := w % 2 ^ nbits
  if v < 2 ^ 32 then (decodeCmd (BitVec.ofNat 32 v)).instr? else none

end Sys2Proof
end

