-- ==== Sys2Proof/Config.lean ====
section
/-! DEFINITION. What an implementation of the block fixes (MAXLEN, 00_scope.md R5), and the values the spec leaves open
(the TIME draw, 60_exceptions.md R173; the hidden divider state between commands, 10_state.md R37). -/

namespace Sys2Proof

/-- The parameter MAXLEN: "a natural number with MAXLEN >= 17, or unbounded" (00_scope.md R5, 92_eei_decisions.md D4).
No smaller bound can be written. -/
inductive MaxLen where
  /-- MAXLEN is unbounded. -/
  | unbounded
  /-- MAXLEN = 17 + extra. -/
  | atLeast17 (extra : Nat)
deriving DecidableEq, Repr

namespace Config

/-- The elapsed time of the n-th draw: a free 64-bit value (60_exceptions.md R173; log 3). -/
opaque timeDraw : Nat → DWord

/-- DIV.R once a command is over: "its value between commands and after reset is unspecified" (10_state.md R37; log 4). -/
opaque freeDivR : Nat → Bits

/-- DIV.T once a command is over (10_state.md R37; log 4). -/
opaque freeDivT : Nat → Bits

/-- DIV.K once a command is over (10_state.md R37; log 4). -/
opaque freeDivK : Nat → Nat

/-- DIV.NEXT once a command is over (10_state.md R37; log 4). -/
opaque freeDivNext : Nat → Nat

/-- DIV.Q once a command is over (10_state.md R37; log 4). -/
opaque freeDivQ : Nat → Bits

end Config

end Sys2Proof
end

