-- ==== Sys2Proof/Machine/State.lean ====
section
/-! DEFINITION. The state of the block: the register map of 10_state.md R20, the hidden divider state of R37, the
parameter MAXLEN (00_scope.md R5), and the model's own fields (pending host accesses, history, draw counter). Plain data. -/

namespace Sys2Proof
namespace Machine

/-- The eight registers, numbers 0 to 7 (10_state.md R20). -/
inductive Reg where
  | command
  | status
  | inA
  | inB
  | out
  | gen
  | iv
  | time
deriving DecidableEq, Repr

/-- A whole register value (20_memory.md R51, R52). -/
inductive RegValue where
  /-- A 32-bit word: COMMAND, STATUS. -/
  | word (w : Word)
  /-- A 64-bit word: TIME. -/
  | dword (w : DWord)
  /-- A symbol sequence: IN_A, IN_B, OUT, GEN, IV. -/
  | syms (S : Syms)
deriving DecidableEq, Repr

/-- What the outside world does to the block next. -/
inductive Input where
  /-- `HostWrite(reg, v)` (20_memory.md R51). Any number can be written down; 8 and above are refused (10_state.md R35). -/
  | write (reg : Nat) (v : RegValue)
  /-- `HostRead(reg)` (20_memory.md R51). -/
  | read (reg : Nat)
  /-- `HostWrite(dst, HostRead(src))`, as in the script line `WR IN_A, OUT` (30_encoding.md R80; log 9). -/
  | copy (dst src : Nat)
  /-- Reset (70_reset_and_hazards.md R190; log 5). -/
  | reset
deriving DecidableEq, Repr

/-- Completion codes (60_exceptions.md R161). -/
inductive Code where
  /-- 0x0 -/
  | ok
  /-- 0x1 -/
  | invalidBitString
  /-- 0x2 -/
  | invalidGeneratorConfig
  /-- 0x3 -/
  | dividendTooShort
  /-- 0x4 -/
  | notConfigured
  /-- 0x5 -/
  | illegalCommand
deriving DecidableEq, Repr

/-- What the host learns: the completion code of each command ("should log each completion code in its event history",
60_exceptions.md R169) and the value of each read (log 8). -/
inductive Event where
  | completed (c : Code)
  | readBack (r : Reg) (v : RegValue)
deriving DecidableEq, Repr

/-- The hidden state of the divider (10_state.md R37). -/
structure Div where
  /-- DIV.R, the working register. -/
  r : Bits
  /-- DIV.T, the XOR result of the current step. -/
  t : Bits
  /-- DIV.K, the step index. -/
  k : Nat
  /-- DIV.NEXT, the index of the next unread dividend bit. -/
  next : Nat
  /-- DIV.Q, the quotient bits emitted so far. -/
  q : Bits
deriving DecidableEq, Repr

/-- The state of the block. COMMAND has no field: it "stores nothing" (10_state.md R21). -/
structure State where
  /-- STATUS, register 1 (10_state.md R22). -/
  status : Word
  /-- IN_A, register 2 (10_state.md R28). -/
  inA : Syms
  /-- IN_B, register 3 (10_state.md R29). -/
  inB : Syms
  /-- OUT, register 4 (10_state.md R30). -/
  out : Syms
  /-- GEN, register 5 (10_state.md R31). -/
  gen : Syms
  /-- IV, register 6 (10_state.md R32). -/
  iv : Syms
  /-- TIME, register 7 (10_state.md R33). -/
  time : DWord
  /-- The hidden divider state (10_state.md R37). -/
  div : Div
  /-- The parameter MAXLEN (00_scope.md R5; log 1); no step changes it. -/
  maxLen : MaxLen
  /-- The accesses still to come, in the host's program order (20_memory.md R61, 70_reset_and_hazards.md R198; log 2). -/
  inputs : List Input
  /-- What the host has observed, newest first (log 8). -/
  history : List Event
  /-- How many times free values have been drawn (log 3). -/
  draws : Nat
deriving DecidableEq, Repr

/-- Why the machine stops. None of the block's own errors is here: they are reported in STATUS.CODE and the machine
goes on (60_exceptions.md R160, R167). -/
inductive Fault where
  /-- Raised by ENCODE, DECODE and DIVIDE where they need the configuration, in a state with CFG_VALID = 1 whose GEN or
  IV is no valid configuration: `G` and `IVb` then have no meaning (00_scope.md R11). No state reachable from reset is
  such (10_state.md R38). Safe: the model stops where the spec says nothing (log 10). -/
  | configurationBroken
deriving DecidableEq, Repr

/-- Why a step has no meaning. Only host accesses are refused, never a command. -/
inductive Refusal where
  /-- An instruction that has no meaning in this model, by its mnemonic; raised by no arm. Safe. -/
  | notModelled (mnemonic : String)
  /-- A host access names a register number of 8 or more: it does "not exist" and "a model refuses it"
  (10_state.md R35; log 6). Raised by the host port. Safe. -/
  | noSuchRegister (reg : Nat)
  /-- A host write of a value that is narrower or wider than the register: "no access narrower or wider than its register
  exists" (20_memory.md R52; log 6). Raised by the host port. Safe. -/
  | noSuchAccess (r : Reg)
  /-- A host write of more than MAXLEN symbols into IN_A or IN_B: "a model gives the host no such move"
  (10_state.md R35; log 6). Raised by the host port. Unsafe in the sense the spec states: it "errs toward proving only
  for inputs longer than MAXLEN". -/
  | tooManySymbols (r : Reg)
deriving DecidableEq, Repr

/-- The hidden divider state of the reset state (unspecified, 10_state.md R37; DESIGN CHOICE, log 4). -/
def Div.atReset : Div := { r := [], t := [], k := 0, next := 0, q := [] }

/-- The state after reset of a block with the given MAXLEN, no access pending (70_reset_and_hazards.md R190). -/
def State.resetOf (m : MaxLen) : State where
  status := 0
  inA := []
  inB := []
  out := []
  gen := []
  iv := []
  time := 0
  div := Div.atReset
  maxLen := m
  inputs := []
  history := []
  draws := 0

/-- The machine right after reset (70_reset_and_hazards.md R190), MAXLEN unbounded (log 1). -/
def State.reset : State := State.resetOf .unbounded

end Machine
end Sys2Proof
end

