-- ==== Sys2Proof/Machine/Flags.lean ====
section
/-! DEFINITION. The fields of STATUS (10_state.md R22), reading and writing each, and the error flag (41_codec.md R131). -/

namespace Sys2Proof
namespace Machine

/-- The value of a completion code (60_exceptions.md R161). -/
def Code.toBits : Code → BitVec 4
  | .ok => 0x0
  | .invalidBitString => 0x1
  | .invalidGeneratorConfig => 0x2
  | .dividendTooShort => 0x3
  | .notConfigured => 0x4
  | .illegalCommand => 0x5

/-- The completion code of a value; 0x6 to 0xF are reserved (60_exceptions.md R161). -/
def Code.ofBits? (v : BitVec 4) : Option Code :=
  match v.toNat with
  | 0 => some .ok
  | 1 => some .invalidBitString
  | 2 => some .invalidGeneratorConfig
  | 3 => some .dividendTooShort
  | 4 => some .notConfigured
  | 5 => some .illegalCommand
  | _ => none

/-! ### Reading (10_state.md R22) -/

/-- STATUS.CODE, bits [3:0] (R23). -/
def State.codeField (s : State) : BitVec 4 := s.status.extractLsb' 0 4

/-- STATUS.CODE by name (R23). -/
def State.code? (s : State) : Option Code := Code.ofBits? s.codeField

/-- STATUS.CFG_VALID, bit [8] (R24). -/
def State.cfgValid (s : State) : Bool := s.status.getLsbD 8

/-- STATUS.ERR_DETECTED, bit [9] (R25). -/
def State.errDetected (s : State) : Bool := s.status.getLsbD 9

/-- STATUS.TIME_VALID, bit [10] (R26). -/
def State.timeValid (s : State) : Bool := s.status.getLsbD 10

/-- The reserved bits [7:4] and [31:11] (R27). -/
def reservedMask : Word := 0xFFFFF8F0

/-- The word STATUS reads as, `zext_32(TIME_VALID<<10 | ERR_DETECTED<<9 | CFG_VALID<<8 | CODE)` (R22). -/
def statusWord (timeValid errDetected cfgValid : Bool) (code : BitVec 4) : Word :=
  (BitVec.ofBool timeValid).setWidth 32 <<< 10 ||| (BitVec.ofBool errDetected).setWidth 32 <<< 9 |||
    (BitVec.ofBool cfgValid).setWidth 32 <<< 8 ||| code.setWidth 32

/-! ### Writing one field, the other bits kept (00_scope.md R10, `STATUS.F <- v`) -/

/-- Bit i of a word set to b. -/
def setBit (w : Word) (i : Nat) (b : Bool) : Word :=
  if b then w ||| BitVec.twoPow 32 i else w &&& ~~~(BitVec.twoPow 32 i)

/-- Bits [3:0] of a word set to v. -/
def setLow4 (w : Word) (v : BitVec 4) : Word := w.extractLsb' 4 28 ++ v

/-- `STATUS.CODE <- c`. -/
def State.setCode (c : Code) (s : State) : State := { s with status := setLow4 s.status c.toBits }

/-- `STATUS.CFG_VALID <- b`. -/
def State.setCfgValid (b : Bool) (s : State) : State := { s with status := setBit s.status 8 b }

/-- `STATUS.ERR_DETECTED <- b`. -/
def State.setErrDetected (b : Bool) (s : State) : State := { s with status := setBit s.status 9 b }

/-- `STATUS.TIME_VALID <- b`. -/
def State.setTimeValid (b : Bool) (s : State) : State := { s with status := setBit s.status 10 b }

/-! ### The error flag -/

/-- `errorDetected = (remainder ≠ all-zero)` (41_codec.md R131). -/
def syndromeNonZero (rem : Bits) : Bool := rem.any id

end Machine
end Sys2Proof
end

