-- ==== Sys2Proof/Machine/Operands.lean ====
section
/-! DEFINITION. Operand forms: bit strings (00_scope.md R6), symbols and symbol sequences (R9, 30_encoding.md R77), the
configuration strings (41_codec.md R121, R122), the extended dividend (R125), the bound MAXLEN (00_scope.md R5). -/

namespace Sys2Proof
namespace Machine

/-! ### Bit strings (00_scope.md R6) -/

/-- `zeros(n)`. -/
def zeros (n : Nat) : Bits := List.replicate n false

/-- `ones(n)`. -/
def ones (n : Nat) : Bits := List.replicate n true

/-- `s.at(i)`, for `0 <= i < len(s)`. Every use is in that range (log 13). -/
def bitAt (s : Bits) (i : Nat) : Bool := s.getD i false

/-- `xor(a, b)`, for strings of equal length (00_scope.md R6, 40_divider.md R111; log 13). -/
def xorBits (a b : Bits) : Bits := List.zipWith (· != ·) a b

/-- `isZero(s)`: every bit is 0; true of the empty string. -/
def isZero (s : Bits) : Bool := s.all (fun b => !b)

/-! ### Symbols (00_scope.md R9) -/

/-- `bitOf(c)`: 0x30 is bit 0, 0x31 is bit 1, undefined for any other byte. -/
def bitOf? (c : Sym) : Option Bool :=
  if c = 0x30 then some false else if c = 0x31 then some true else none

/-- `validSyms(S)`: every element is 0x30 or 0x31. -/
def validSyms (S : Syms) : Bool := S.all (fun c => (bitOf? c).isSome)

/-- `bits(S)`, defined exactly for `S` with `validSyms(S)`. -/
def bits? : Syms → Option Bits
  | [] => some []
  | c :: S =>
    match bitOf? c, bits? S with
    | some b, some s => some (b :: s)
    | _, _ => none

/-- The symbol of a bit. -/
def symOf (b : Bool) : Sym := if b then 0x31 else 0x30

/-- `syms(s)`. -/
def syms (s : Bits) : Syms := s.map symOf

/-! ### The configuration strings -/

/-- A valid generator: valid symbols, length at least 2, first bit 1 (41_codec.md R121). -/
def validGen (A : Syms) : Bool :=
  validSyms A && decide (2 ≤ A.length) && (A.head?.bind bitOf? == some true)

/-- A valid initial value for the generator `A`: valid symbols, length `len(A) - 1` (41_codec.md R122). -/
def validIV (B A : Syms) : Bool := validSyms B && decide (B.length = A.length - 1)

/-- `G`, "defined only while STATUS.CFG_VALID = 1" (00_scope.md R11): the bits of a valid GEN. DESIGN CHOICE (log 16): the
function does not test CFG_VALID; its answer at CFG_VALID = 0 means nothing, and no command asks for it there. -/
def State.generator? (s : State) : Option Bits := if validGen s.gen then bits? s.gen else none

/-- `IVb` (00_scope.md R11): the bits of an IV that is valid for GEN. DESIGN CHOICE (log 16): CFG_VALID is not tested here
either. So at reset, where GEN and IV are empty, the answer is the empty string; it means nothing, and no command asks for
it. -/
def State.initialValue? (s : State) : Option Bits := if validIV s.iv s.gen then bits? s.iv else none

/-- The extended dividend `E := IVb ++ d ++ zeros(g - 1)` (41_codec.md R125). -/
def extendedDividend (ivb d : Bits) (g : Nat) : Bits := ivb ++ d ++ zeros (g - 1)

/-! ### Presets (42_presets.md R152) -/

/-- CRC-6-ITU generator `1000011`. -/
def crc6Gen : Bits := [true, false, false, false, false, true, true]

/-- CRC-6-ITU initial value `000000`. -/
def crc6IV : Bits := zeros 6

/-- CRC-16-CCITT generator `10001000000100001`. -/
def crc16Gen : Bits :=
  [true, false, false, false, true, false, false, false, false, false, false, true, false, false, false, false, true]

/-- CRC-16-CCITT initial value, sixteen 1s. -/
def crc16IV : Bits := ones 16

/-! ### MAXLEN (00_scope.md R5) -/

/-- `n <= MAXLEN`. -/
def withinMaxLen (m : MaxLen) (n : Nat) : Bool :=
  match m with
  | .unbounded => true
  | .atLeast17 extra => decide (n ≤ 17 + extra)

/-- `n <= 2*MAXLEN - 1`, the capacity of OUT (00_scope.md R5, 10_state.md R30). -/
def withinOutCapacity (m : MaxLen) (n : Nat) : Bool :=
  match m with
  | .unbounded => true
  | .atLeast17 extra => decide (n ≤ 2 * (17 + extra) - 1)

end Machine
end Sys2Proof
end

