-- ==== Sys2Proof/Machine/Ops.lean ====
section
/-! DEFINITION. The shared operations of the commands: completing with a result, raising an error (60_exceptions.md
R167), loading and clearing the configuration (41_codec.md R123, R124), the timing report (60_exceptions.md R173), the
illegal command (R166), and reset (70_reset_and_hazards.md R190). There is no trap to take and none to return from
(60_exceptions.md R171). -/

namespace Sys2Proof
namespace Machine

/-! ### Free values -/

/-- The divider's hidden state once a command is over: free values (10_state.md R37, 93_implementation_defined.md I3; log 4). -/
def freeDiv (n : Nat) : Div where
  r := Config.freeDivR n
  t := Config.freeDivT n
  k := Config.freeDivK n
  next := Config.freeDivNext n
  q := Config.freeDivQ n

/-- "Nothing of it survives the command that created it" (10_state.md R37): the hidden divider state takes free values,
and the draw counter moves on. -/
def State.releaseDivider (s : State) : State := { s with div := freeDiv s.draws, draws := s.draws + 1 }

/-- The value a command reports, if any: with T = 1 `draw tau : u64`, with T = 0 none (60_exceptions.md R173, 41_codec.md
R126, R129). -/
def State.timingReport (t : Bool) (s : State) : Option DWord := if t then some (Config.timeDraw s.draws) else none

/-! ### Completion -/

/-- `TIME <- tau; STATUS.TIME_VALID <- 1` with a report, `TIME <- 0; STATUS.TIME_VALID <- 0` without (41_codec.md R126;
10_state.md R33). -/
def State.setTime (report : Option DWord) (s : State) : State :=
  match report with
  | some tau => { s.setTimeValid true with time := tau }
  | none => { s.setTimeValid false with time := 0 }

/-- Completion of a command: the timing fields, OUT, ERR_DETECTED and CODE are written (10_state.md R23, R25, R26, R30,
R33), the divider is released, and the host's history gets the code. -/
def State.complete (c : Code) (err : Bool) (report : Option DWord) (result : Syms) (s : State) : State :=
  let s := s.setTime report
  let s := { s with out := result }
  let s := (s.setErrDetected err).setCode c
  { s.releaseDivider with history := .completed c :: s.history }

/-- `raise E` (60_exceptions.md R167): CODE is E, OUT is empty, ERR_DETECTED, TIME_VALID and TIME are 0; GEN, IV,
CFG_VALID, IN_A and IN_B are unchanged. -/
def State.raise (e : Code) (s : State) : State := s.complete e false none []

/-! ### Configuration -/

/-- `GEN <- A; IV <- B; STATUS.CFG_VALID <- 1` (41_codec.md R123, 42_presets.md R150, R151). -/
def State.loadConfig (A B : Syms) (s : State) : State := { s.setCfgValid true with gen := A, iv := B }

/-- `GEN <- empty; IV <- empty; STATUS.CFG_VALID <- 0` (41_codec.md R123, R124). -/
def State.clearConfig (s : State) : State := { s.setCfgValid false with gen := [], iv := [] }

/-! ### The illegal command -/

/-- A word that decodes to ILLEGAL "completes at once with STATUS.CODE = ILLEGAL_COMMAND" (30_encoding.md R75,
60_exceptions.md R166). -/
def execIllegal (s : State) : Host.Outcome State Fault Refusal := .next (s.raise .illegalCommand)

/-! ### Reset -/

/-- Reset during a run: every register takes its reset value (70_reset_and_hazards.md R190). The hidden divider state is
unspecified; MAXLEN, the accesses still to come, the host's history and the draw counter are none of the block's
registers (log 5). -/
def State.applyReset (s : State) : State :=
  { State.resetOf s.maxLen with
    div := freeDiv s.draws
    draws := s.draws + 1
    inputs := s.inputs
    history := s.history }

end Machine
end Sys2Proof
end

