-- ==== Sys2Proof/Machine/Divider.lean ====
section
/-! DEFINITION. The polynomial divider, step by step (40_divider.md R100 to R107), and the DIVIDE command (R110). -/

namespace Sys2Proof
namespace Machine

/-! ### The datapath -/

/-- `N = n - g + 1`, the number of steps (40_divider.md R102). -/
def stepCount (D G : Bits) : Nat := D.length - G.length + 1

/-- Initialisation: `DIV.R <- take(D, g); DIV.NEXT <- g; DIV.Q <- empty` (40_divider.md R101). -/
def Div.load (D G : Bits) (d : Div) : Div := { d with r := D.take G.length, next := G.length, q := [] }

/-- Quotient bit and conditional XOR (40_divider.md R103). -/
def Div.subtract (G : Bits) (k : Nat) (d : Div) : Div :=
  let q := bitAt d.r 0
  { d with k := k, q := d.q ++ [q], t := xorBits d.r (if q then G else zeros G.length) }

/-- Refill: `DIV.R <- drop(DIV.T, 1) ++ [D.at(DIV.NEXT)]; DIV.NEXT <- DIV.NEXT + 1` (40_divider.md R105). -/
def Div.refill (D : Bits) (d : Div) : Div :=
  { d with r := d.t.drop 1 ++ [bitAt D d.next], next := d.next + 1 }

/-- Step k: the last step, k = N - 1, does not refill (40_divider.md R103, R105; 90_conflicts.md C1). -/
def Div.step (D G : Bits) (k : Nat) (d : Div) : Div :=
  let d := d.subtract G k
  if k < stepCount D G - 1 then d.refill D else d

/-- Steps k, k + 1, …, m of them. -/
def Div.steps (D G : Bits) : (m k : Nat) → Div → Div
  | 0, _, d => d
  | m + 1, k, d => Div.steps D G m (k + 1) (d.step D G k)

/-- A whole division: initialisation, then the N steps from k = 0 (40_divider.md R106). -/
def Div.run (D G : Bits) (d : Div) : Div := Div.steps D G (stepCount D G) 0 (d.load D G)

/-- "After step N - 1 the remainder is drop(DIV.T, 1)" (40_divider.md R106). -/
def Div.remainder (d : Div) : Bits := d.t.drop 1

/-- `divide(D, G)`, for a valid generator and `len(D) >= len(G)` (40_divider.md R100, R106). Its own working register is
fresh: "each call allocates its own working register" (R109). -/
def divide (D G : Bits) : Bits := (Div.run D G Div.atReset).remainder

/-- The quotient DIV.Q of a division (40_divider.md R107). No register receives it. -/
def quotient (D G : Bits) : Bits := (Div.run D G Div.atReset).q

/-- A command's use of the divider: the hidden state runs through the division (10_state.md R37). -/
def State.runDivider (D G : Bits) (s : State) : State := { s with div := s.div.run D G }

/-! ### The command -/

/-- DIVIDE: remainder of IN_A divided by the configured generator (40_divider.md R110). -/
def execDivide (s : State) : Host.Outcome State Fault Refusal :=
  if s.cfgValid = false then .next (s.raise .notConfigured)
  else
    match bits? s.inA with
    | none => .next (s.raise .invalidBitString)
    | some D =>
      match s.generator? with
      | none => .fault .configurationBroken
      | some G =>
        if D.length < G.length then .next (s.raise .dividendTooShort)
        else
          let s := s.runDivider D G
          .next (s.complete .ok false none (syms s.div.remainder))

end Machine
end Sys2Proof
end

