-- ==== Sys2Proof/Machine/Codec.lean ====
section
/-! DEFINITION. The codec commands CONFIG, ENCODE and DECODE (41_codec.md R123, R126, R129). -/

namespace Sys2Proof
namespace Machine

/-- CONFIG: load and validate a generator and an initial value (41_codec.md R123, R124). -/
def execConfig (s : State) : Host.Outcome State Fault Refusal :=
  if validGen s.inA && validIV s.inB s.inA then
    .next ((s.loadConfig s.inA s.inB).complete .ok false none [])
  else
    .next (s.clearConfig.raise .invalidGeneratorConfig)

/-- ENCODE: compute the codeword of IN_A (41_codec.md R125, R126). -/
def execEncode (t : Bool) (s : State) : Host.Outcome State Fault Refusal :=
  if s.cfgValid = false then .next (s.raise .notConfigured)
  else
    match bits? s.inA with
    | none => .next (s.raise .invalidBitString)
    | some d =>
      match s.generator?, s.initialValue? with
      | some G, some ivb =>
        let s := s.runDivider (extendedDividend ivb d G.length) G
        .next (s.complete .ok false (s.timingReport t) (syms (d ++ s.div.remainder)))
      | _, _ => .fault .configurationBroken

/-- DECODE: check a received codeword, "no initial-value prefix, no trailing padding" (41_codec.md R129, R130). -/
def execDecode (t : Bool) (s : State) : Host.Outcome State Fault Refusal :=
  if s.cfgValid = false then .next (s.raise .notConfigured)
  else
    match bits? s.inA with
    | none => .next (s.raise .invalidBitString)
    | some c =>
      match s.generator? with
      | none => .fault .configurationBroken
      | some G =>
        if c.length < G.length then .next (s.raise .dividendTooShort)
        else
          let s := s.runDivider c G
          .next (s.complete .ok (syndromeNonZero s.div.remainder) (s.timingReport t) (syms c))

end Machine
end Sys2Proof
end

