-- ==== Sys2Proof/Machine/Presets.lean ====
section
/-! DEFINITION. The preset commands CFG_CRC6 and CFG_CRC16 (42_presets.md R150 to R153). -/

namespace Sys2Proof
namespace Machine

/-- CFG_CRC6: load the CRC-6-ITU preset (42_presets.md R150). -/
def execCfgCrc6 (s : State) : Host.Outcome State Fault Refusal :=
  .next ((s.loadConfig (syms crc6Gen) (syms crc6IV)).complete .ok false none [])

/-- CFG_CRC16: load the CRC-16-CCITT preset (42_presets.md R151). -/
def execCfgCrc16 (s : State) : Host.Outcome State Fault Refusal :=
  .next ((s.loadConfig (syms crc16Gen) (syms crc16IV)).complete .ok false none [])

end Machine
end Sys2Proof
end

