-- ==== Sys2Proof/Machine/Dispatch.lean ====
section
/-! DEFINITION. One arm per command. -/

namespace Sys2Proof
namespace Machine

def exec (i : Instr) (s : State) : Host.Outcome State Fault Refusal :=
  match i with
  | .config => Sys2Proof.Machine.execConfig s
  | .encode t => Sys2Proof.Machine.execEncode t s
  | .decode t => Sys2Proof.Machine.execDecode t s
  | .divide => Sys2Proof.Machine.execDivide s
  | .cfgCrc6 => Sys2Proof.Machine.execCfgCrc6 s
  | .cfgCrc16 => Sys2Proof.Machine.execCfgCrc16 s

end Machine
end Sys2Proof
end

