-- ==== Sys2Proof/Machine/Port.lean ====
section
/-! DEFINITION. The host port: HostRead and HostWrite on the register map (10_state.md R20, 20_memory.md R51, R52, R59),
and how the next pending access reaches the block (70_reset_and_hazards.md R191, R198). -/

namespace Sys2Proof
namespace Machine

/-- The register of a number; "register numbers 8 and above do not exist" (10_state.md R20, R35). -/
def Reg.ofNumber? : Nat → Option Reg
  | 0 => some .command
  | 1 => some .status
  | 2 => some .inA
  | 3 => some .inB
  | 4 => some .out
  | 5 => some .gen
  | 6 => some .iv
  | 7 => some .time
  | _ => none

/-- The number of a register (10_state.md R20). -/
def Reg.number : Reg → Nat
  | .command => 0
  | .status => 1
  | .inA => 2
  | .inB => 3
  | .out => 4
  | .gen => 5
  | .iv => 6
  | .time => 7

/-- "COMMAND and STATUS are accessed as 32 bits, TIME as 64 bits, and IN_A, IN_B, OUT, GEN and IV as a whole sequence"
(20_memory.md R52). -/
def Reg.takes (r : Reg) (v : RegValue) : Bool :=
  match r, v with
  | .command, .word _ => true
  | .status, .word _ => true
  | .inA, .syms _ => true
  | .inB, .syms _ => true
  | .out, .syms _ => true
  | .gen, .syms _ => true
  | .iv, .syms _ => true
  | .time, .dword _ => true
  | _, _ => false

/-- `HostRead(reg)`: the whole current value (20_memory.md R51); COMMAND reads 0 (10_state.md R21). -/
def State.hostRead (s : State) (r : Reg) : RegValue :=
  match r with
  | .command => .word 0
  | .status => .word s.status
  | .inA => .syms s.inA
  | .inB => .syms s.inB
  | .out => .syms s.out
  | .gen => .syms s.gen
  | .iv => .syms s.iv
  | .time => .dword s.time

/-- What an access comes to: a command word for the block to run, or something already over. -/
inductive Port where
  /-- A write of COMMAND: the block decodes and runs `w` (10_state.md R21). -/
  | command (w : Word) (s : State)
  /-- Any other access. -/
  | done (o : Host.Outcome State Fault Refusal)

/-- `HostWrite(r, v)` of a value of the register's own width (20_memory.md R51): a command, a store into IN_A or IN_B of
at most MAXLEN symbols (10_state.md R28, R29, R35), or nothing (10_state.md R34). -/
def State.hostWriteReg (s : State) (r : Reg) (v : RegValue) : Port :=
  match r, v with
  | .command, .word w => .command w s
  | .inA, .syms S =>
    if withinMaxLen s.maxLen S.length then .done (.next { s with inA := S }) else .done (.refused (.tooManySymbols .inA))
  | .inB, .syms S =>
    if withinMaxLen s.maxLen S.length then .done (.next { s with inB := S }) else .done (.refused (.tooManySymbols .inB))
  | _, _ => .done (.next s)

/-- `HostWrite(reg, v)` (20_memory.md R51, R52; 10_state.md R35). -/
def State.hostWrite (s : State) (n : Nat) (v : RegValue) : Port :=
  match Reg.ofNumber? n with
  | none => .done (.refused (.noSuchRegister n))
  | some r => if r.takes v then s.hostWriteReg r v else .done (.refused (.noSuchAccess r))

/-- The host has read r: the value goes into its history; nothing else changes, "no read has a side effect"
(20_memory.md R59; log 8). -/
def State.noteRead (s : State) (r : Reg) : State := { s with history := .readBack r (s.hostRead r) :: s.history }

/-- One input (20_memory.md R51, 30_encoding.md R80, 70_reset_and_hazards.md R190). -/
def State.access (s : State) : Input → Port
  | .write n v => s.hostWrite n v
  | .read n =>
    match Reg.ofNumber? n with
    | none => .done (.refused (.noSuchRegister n))
    | some r => .done (.next (s.noteRead r))
  | .copy dst src =>
    match Reg.ofNumber? src with
    | none => .done (.refused (.noSuchRegister src))
    | some r => (s.noteRead r).hostWrite dst (s.hostRead r)
  | .reset => .done (.next s.applyReset)

/-- The next pending input reaches the block; with none pending the block is idle (70_reset_and_hazards.md R191; log 2). -/
def State.takeInput (s : State) : Port :=
  match s.inputs with
  | [] => .done (.next s)
  | a :: rest => State.access { s with inputs := rest } a

/-- The access that writes a command word: bits above nbits are zero (log 11). -/
def commandWrite (nbits w : Nat) : Input := .write 0 (.word (BitVec.ofNat 32 (w % 2 ^ nbits)))

end Machine
end Sys2Proof
end

