-- ==== Sys2Proof/Machine/Step.lean ====
section
/-! DEFINITION. One step: the host's next access, and the command it issues, if any, run to completion (10_state.md R21,
20_memory.md R58). -/

namespace Sys2Proof
namespace Machine

/-- The block decodes a word written to COMMAND and runs the operation to completion (10_state.md R21). -/
def runCommand (w : Word) (s : State) : Host.Outcome State Fault Refusal :=
  match decodeCmd w with
  | .cmd i => exec i s
  | .illegal _ => execIllegal s

/-- An access, with the command it issues. -/
def runPort : Port → Host.Outcome State Fault Refusal
  | .command w s => runCommand w s
  | .done o => o

/-- One step of the machine. -/
def step (s : State) : Host.Outcome State Fault Refusal := runPort s.takeInput

/-- The state whose next step runs the given command word: the host's next access writes it to COMMAND (log 2, log 11). -/
def State.withFetchWord (s : State) (nbits w : Nat) : State := { s with inputs := commandWrite nbits w :: s.inputs }

end Machine
end Sys2Proof
end

