-- ==== Sys2Proof/Machine/Script.lean ====
section
/-! DEFINITION. What the host does on its own side of the port: the byte to bit conversion (20_memory.md R56) and the
host scripts (30_encoding.md R80, R81), each line as the inputs it stands for. -/

namespace Sys2Proof
namespace Machine

/-! ### The byte to bit boundary (20_memory.md R56) -/

/-- Byte `b` becomes the bits `b[7], b[6], ..., b[0]`. -/
def byteBits (b : BitVec 8) : Bits :=
  [b.getLsbD 7, b.getLsbD 6, b.getLsbD 5, b.getLsbD 4, b.getLsbD 3, b.getLsbD 2, b.getLsbD 1, b.getLsbD 0]

/-- "The bytes follow each other in input order." -/
def bytesBits (bs : List (BitVec 8)) : Bits := bs.flatMap byteBits

/-! ### Names (30_encoding.md R80; 10_state.md R20) -/

/-- A register's name. -/
def Reg.name : Reg → String
  | .command => "COMMAND"
  | .status => "STATUS"
  | .inA => "IN_A"
  | .inB => "IN_B"
  | .out => "OUT"
  | .gen => "GEN"
  | .iv => "IV"
  | .time => "TIME"

/-- The register of a name; "a register name outside 10_state.md rule R20 makes the program ill-formed". -/
def Reg.ofName? (n : String) : Option Reg :=
  [Reg.command, .status, .inA, .inB, .out, .gen, .iv, .time].find? fun r => r.name == n

/-- The command of a mnemonic, in capitals, with T = t; only ENCODE and DECODE have a `.T` form. -/
def commandNamed? (n : List Char) (t : Bool) : Option Instr :=
  if n = "ENCODE".toList then some (.encode t)
  else if n = "DECODE".toList then some (.decode t)
  else if t then none
  else if n = "CONFIG".toList then some .config
  else if n = "DIVIDE".toList then some .divide
  else if n = "CFG_CRC6".toList then some .cfgCrc6
  else if n = "CFG_CRC16".toList then some .cfgCrc16
  else none

/-- "Mnemonics are case-insensitive." -/
def commandOfMnemonic? (n : String) (t : Bool) : Option Instr := commandNamed? (n.toList.map Char.toUpper) t

/-- "The byte value of each character of <chars>, in order"; a character above 0xFF has none (log 14). -/
def charBytes? : List Char → Option Syms
  | [] => some []
  | c :: cs =>
    match charBytes? cs with
    | some S => if c.toNat < 256 then some (BitVec.ofNat 8 c.toNat :: S) else none
    | none => none

/-! ### Lines (30_encoding.md R80) and pseudo-instructions (R81) -/

/-- What a `WR` line writes. -/
inductive WrSource where
  /-- `"<chars>"` -/
  | chars (text : String)
  /-- `bytes(b0, b1, ...)` -/
  | bytes (S : Syms)
  /-- `OUT` -/
  | out
deriving DecidableEq, Repr

/-- A line of a host script. -/
inductive ScriptLine where
  /-- `WR <reg>, <source>`, for IN_A and IN_B. -/
  | wr (reg : String) (src : WrSource)
  /-- `CMD <mnemonic>`, or `CMD <mnemonic>.T` with t. -/
  | cmd (mnemonic : String) (t : Bool)
  /-- `CMD 0x<hex>`: any 32-bit word. -/
  | cmdWord (w : Word)
  /-- `RD <reg>` -/
  | rd (reg : String)
  /-- `CFG "<gen>", "<iv>"` -/
  | cfg (gen iv : String)
  /-- `ENC "<d>"`, or `ENC.T "<d>"` with t. -/
  | enc (t : Bool) (d : String)
  /-- `DEC "<c>"`, or `DEC.T "<c>"` with t. -/
  | dec (t : Bool) (c : String)
  /-- `DIV "<D>"` -/
  | div (D : String)
deriving DecidableEq, Repr

/-- `CMD <mnemonic>`: HostWrite(COMMAND, w). -/
def issue (i : Instr) : Input := .write Reg.command.number (.word (encode i))

/-- `WR <r>, "<chars>"`. -/
def writeChars? (r : Reg) (text : String) : Option Input :=
  (charBytes? text.toList).map fun S => .write r.number (.syms S)

/-- `WR IN_A, "<text>"` then the command. -/
def writeThenIssue? (text : String) (i : Instr) : Option (List Input) :=
  (writeChars? .inA text).map fun a => [a, issue i]

/-- The inputs a line stands for; none where the line is ill-formed. -/
def ScriptLine.inputs? : ScriptLine → Option (List Input)
  | .wr reg src =>
    match Reg.ofName? reg with
    | some r =>
      if r = .inA ∨ r = .inB then
        match src with
        | .chars text => (writeChars? r text).map fun a => [a]
        | .bytes S => some [.write r.number (.syms S)]
        | .out => some [.copy r.number Reg.out.number]
      else none
    | none => none
  | .cmd mnemonic t => (commandOfMnemonic? mnemonic t).map fun i => [issue i]
  | .cmdWord w => some [.write Reg.command.number (.word w)]
  | .rd reg => (Reg.ofName? reg).map fun r => [.read r.number]
  | .cfg gen iv =>
    match writeChars? .inA gen, writeChars? .inB iv with
    | some a, some b => some [a, b, issue .config]
    | _, _ => none
  | .enc t d => writeThenIssue? d (.encode t)
  | .dec t c => writeThenIssue? c (.decode t)
  | .div D => writeThenIssue? D .divide

/-- The inputs of a script, one host action a line; none where a line is ill-formed. -/
def scriptInputs? : List ScriptLine → Option (List Input)
  | [] => some []
  | l :: ls =>
    match l.inputs?, scriptInputs? ls with
    | some a, some b => some (a ++ b)
    | _, _ => none

end Machine
end Sys2Proof
end

