-- ==== Sys2Proof/Safety.lean ====
section
/-! DEFINITION. The invariant of the block, its reachable states, the well-formed host accesses, and the polynomial reading
of bit strings used in statements (00_scope.md R7). -/

namespace Sys2Proof
namespace Machine

/-! ### The invariant -/

/-- The configuration invariant (10_state.md R38): a valid configuration, or none at all. -/
def State.ConfigOk (s : State) : Prop :=
  (s.cfgValid = true ∧ validGen s.gen = true ∧ validIV s.iv s.gen = true) ∨
    (s.cfgValid = false ∧ s.gen = [] ∧ s.iv = [])

/-- No sequence is longer than its register (00_scope.md R5, 10_state.md R20, R30). -/
structure State.CapacityOk (s : State) : Prop where
  inA : withinMaxLen s.maxLen s.inA.length = true
  inB : withinMaxLen s.maxLen s.inB.length = true
  gen : withinMaxLen s.maxLen s.gen.length = true
  iv : withinMaxLen s.maxLen (s.iv.length + 1) = true
  out : withinOutCapacity s.maxLen s.out.length = true

/-- What holds of the block in every state a run reaches. -/
structure State.Inv (s : State) : Prop where
  /-- The reserved bits of STATUS read 0 (10_state.md R27). -/
  reserved : s.status &&& reservedMask = 0
  /-- CODE is at most 5 (10_state.md R23). -/
  code : s.codeField.toNat ≤ 5
  /-- 10_state.md R38. -/
  config : s.ConfigOk
  /-- Without a report TIME is 0 (10_state.md R33). -/
  time : s.timeValid = false → s.time = 0
  /-- Only a command that completed with OK reports an error or a time (10_state.md R25, R26). -/
  flags : s.errDetected = true ∨ s.timeValid = true → s.code? = some .ok
  /-- Each element of OUT is 0x30 or 0x31 (10_state.md R30). -/
  outSyms : validSyms s.out = true
  /-- No sequence is longer than its register. -/
  capacity : s.CapacityOk

/-! ### Reachable states (70_reset_and_hazards.md R198) -/

/-- A run starts from reset, for some MAXLEN, with some finite sequence of host actions to come. -/
inductive Reachable : State → Prop where
  | start (m : MaxLen) (script : List Input) : Reachable { State.resetOf m with inputs := script }
  | step {s t : State} : Reachable s → Machine.step s = .next t → Reachable t

/-! ### Well-formed accesses (10_state.md R35, 20_memory.md R52) -/

/-- A value of the register's own width, of at most MAXLEN symbols where it goes into IN_A or IN_B. -/
def writeAllowed (m : MaxLen) (r : Reg) (v : RegValue) : Bool :=
  r.takes v &&
    match r, v with
    | .inA, .syms S => withinMaxLen m S.length
    | .inB, .syms S => withinMaxLen m S.length
    | _, _ => true

/-- Two registers of one width. -/
def sameWidth (dst src : Reg) : Bool :=
  match dst, src with
  | .command, .command | .command, .status | .status, .command | .status, .status => true
  | .time, .time => true
  | .command, _ | .status, _ | .time, _ => false
  | _, .command | _, .status | _, .time => false
  | _, _ => true

/-- An access that can be judged before the run: it names registers that exist, at their own widths, and writes no more
than MAXLEN symbols. OUT may be longer than MAXLEN, so copying it into IN_A or IN_B is allowed here only without a bound. -/
def Input.wellFormed (m : MaxLen) : Input → Bool
  | .write n v =>
    match Reg.ofNumber? n with
    | some r => writeAllowed m r v
    | none => false
  | .read n => (Reg.ofNumber? n).isSome
  | .copy dst src =>
    match Reg.ofNumber? dst, Reg.ofNumber? src with
    | some d, some r => sameWidth d r && (!(r == .out && (d == .inA || d == .inB)) || m == .unbounded)
    | _, _ => false
  | .reset => true

/-- The same, judged in the state the access meets. -/
def Input.admitted (s : State) : Input → Bool
  | .write n v =>
    match Reg.ofNumber? n with
    | some r => writeAllowed s.maxLen r v
    | none => false
  | .read n => (Reg.ofNumber? n).isSome
  | .copy dst src =>
    match Reg.ofNumber? dst, Reg.ofNumber? src with
    | some d, some r => writeAllowed s.maxLen d (s.hostRead r)
    | _, _ => false
  | .reset => true

/-- The word an access writes into COMMAND, if it is a command (10_state.md R21). -/
def Input.commandWord? (s : State) : Input → Option Word
  | .write 0 (.word w) => some w
  | .copy 0 n =>
    match (Reg.ofNumber? n).map s.hostRead with
    | some (.word w) => some w
    | _ => none
  | _ => none

/-! ### The polynomial reading (00_scope.md R7) -/

/-- `poly(s)`: index 0 holds the coefficient of the highest power. -/
noncomputable def poly : Bits → Polynomial (ZMod 2)
  | [] => 0
  | b :: s => (if b then Polynomial.X ^ s.length else 0) + poly s

/-- A valid generator as a bit string: `g >= 2` and `G.at(0) = 1` (40_divider.md R100). -/
def IsGenerator (G : Bits) : Prop := 2 ≤ G.length ∧ bitAt G 0 = true

/-- `c` with the bit at index `i` inverted (41_codec.md R134). -/
def flipAt (c : Bits) (i : Nat) : Bits := c.set i (!bitAt c i)

/-- The division by an implementation that "may also shift on the last step, with a 0 shifted in" (40_divider.md R106): N
times subtract and refill, a 0 standing for a bit past the dividend's end. Its remainder is the register's first g - 1
bits. -/
def shiftEveryStep (D G : Bits) : (m k : Nat) → Div → Div
  | 0, _, d => d
  | m + 1, k, d => shiftEveryStep D G m (k + 1) ((d.subtract G k).refill D)

/-! ### What statements about commands speak of -/

/-- GEN holds the valid generator `G`, and a configuration is loaded. -/
structure State.HasGenerator (s : State) (G : Bits) : Prop where
  cfgValid : s.cfgValid = true
  gen : s.gen = syms G
  isGenerator : IsGenerator G

/-- The configuration `(G, V)` is loaded (41_codec.md R120). -/
structure State.HasConfig (s : State) (G V : Bits) : Prop extends s.HasGenerator G where
  iv : s.iv = syms V
  ivLength : V.length = G.length - 1

/-- GEN, IV and CFG_VALID are as before. -/
structure State.SameConfig (s t : State) : Prop where
  gen : t.gen = s.gen
  iv : t.iv = s.iv
  cfgValid : t.cfgValid = s.cfgValid

/-- What every command keeps: the operand registers, the reserved bits of STATUS, MAXLEN and the accesses to come. -/
structure State.Kept (s t : State) : Prop where
  inA : t.inA = s.inA
  inB : t.inB = s.inB
  reserved : t.status &&& reservedMask = s.status &&& reservedMask
  maxLen : t.maxLen = s.maxLen
  inputs : t.inputs = s.inputs

/-- The registers every command writes: CODE, ERR_DETECTED, TIME_VALID with TIME, and OUT. -/
structure State.Results (t : State) (c : Code) (err : Bool) (report : Option DWord) (result : Syms) : Prop where
  code : t.codeField = c.toBits
  errDetected : t.errDetected = err
  timeValid : t.timeValid = report.isSome
  time : t.time = report.getD 0
  out : t.out = result

/-- Error completion, "with these effects and no others" (60_exceptions.md R167); whether the configuration stays is said
beside it. -/
structure ErrorCompletion (e : Code) (s t : State) : Prop where
  results : t.Results e false none []
  kept : s.Kept t

/-- The value a command issued with T = b reports (60_exceptions.md R173): the draw, or none. -/
def reported (b : Bool) (s : State) : Option DWord := if b then some (Config.timeDraw s.draws) else none

end Machine
end Sys2Proof
end

