-- ==== Sys2Proof/Certificates/Slice0/Obligations.lean ====
section
/-! DEFINITION. The statements for the provers. -/

open Sys2Proof Sys2Proof.Machine

/-! ### The command word -/

/-- Decode and encode agree, both ways: no bit of a command word is dropped, and no word has two readings
(30_encoding.md R70 to R74). -/
def Obligations.DecodeEncodeInverse : Prop :=
  (∀ i : Instr, i.wf = true → decodeCmd (encode i) = .cmd i) ∧
    ∀ (w : Word) (i : Instr), decodeCmd w = .cmd i → encode i = w

/-- The decoder is the function `decodeCmd` of 30_encoding.md R74, read off w[31:5], w[4] and w[3:0], and exactly the
eight listed words are legal. -/
def Obligations.DecodeCmdIsTheTable : Prop :=
  ∀ w : Word,
    ((decodeCmd w).instr? =
      if w.toNat / 32 ≠ 0 then none
      else
        match w.toNat % 16, decide (w.toNat / 16 % 2 = 1) with
        | 1, false => some .config
        | 2, t => some (.encode t)
        | 3, t => some (.decode t)
        | 4, false => some .divide
        | 5, false => some .cfgCrc6
        | 6, false => some .cfgCrc16
        | _, _ => none) ∧
    ((decodeCmd w).instr?.isSome = true ↔
      w ∈ ([0x00000001, 0x00000002, 0x00000012, 0x00000003, 0x00000013, 0x00000004, 0x00000005, 0x00000006] : List Word))

/-- The eight legal words, written out from the spec, decode to their commands (a sanity statement). -/
def Obligations.LegalWordsDecode : Prop :=
  decodeCmd 0x00000001 = .cmd .config ∧ decodeCmd 0x00000002 = .cmd (.encode false) ∧
  decodeCmd 0x00000012 = .cmd (.encode true) ∧ decodeCmd 0x00000003 = .cmd (.decode false) ∧
  decodeCmd 0x00000013 = .cmd (.decode true) ∧ decodeCmd 0x00000004 = .cmd .divide ∧
  decodeCmd 0x00000005 = .cmd .cfgCrc6 ∧ decodeCmd 0x00000006 = .cmd .cfgCrc16

/-! ### Steps -/

/-- A step whose access writes a legal word to COMMAND runs that command, whichever way the word gets there: written by
the host, copied from a register the host read, or placed by withFetchWord. With no access pending the block is idle. The
pending accesses and the idle step are the model's own choice (log 2); so is the second clause: that a copy into COMMAND is
one step that runs the word copied (log 9), after the value read is noted in the history (log 8). -/
def Obligations.StepRunsDecodedCommand : Prop :=
  (∀ (s : State) (rest : List Input) (w : Word) (i : Instr),
    s.inputs = .write 0 (.word w) :: rest → decodeCmd w = .cmd i → step s = exec i { s with inputs := rest }) ∧
  (∀ (s : State) (rest : List Input) (r : Reg) (w : Word) (i : Instr),
    s.inputs = .copy 0 r.number :: rest → s.hostRead r = .word w → decodeCmd w = .cmd i →
      step s = exec i (State.noteRead { s with inputs := rest } r)) ∧
  (∀ (s : State) (i : Instr), step (s.withFetchWord 32 (encode i).toNat) = exec i s) ∧
  (∀ s : State, s.inputs = [] → step s = .next s)

/-- A COMMAND write of an illegal word completes at once with ILLEGAL_COMMAND, with the effects of error completion, and
changes no configuration (30_encoding.md R75, 60_exceptions.md R166, R167). -/
def Obligations.IllegalWordCompletes : Prop :=
  ∀ (s : State) (a : Input) (rest : List Input) (w : Word),
    s.inputs = a :: rest → a.commandWord? { s with inputs := rest } = some w → (decodeCmd w).instr? = none →
      ∃ t, step s = .next t ∧ ErrorCompletion .illegalCommand { s with inputs := rest } t ∧ s.SameConfig t

/-! ### The divider -/

/-- 40_divider.md R104. -/
def Obligations.LeadingBitZeroAfterXor : Prop :=
  ∀ (D G : Bits) (k : Nat) (d : Div), IsGenerator G → d.r.length = G.length → bitAt (d.step D G k).t 0 = false

/-- 40_divider.md R105: after k < N steps NEXT is g + k; a step that is not the last refills from inside the dividend; the
last step does not refill. -/
def Obligations.RefillStaysInsideDividend : Prop :=
  ∀ (D G : Bits) (k : Nat) (d : Div), IsGenerator G → G.length ≤ D.length → k < stepCount D G →
    let e := Div.steps D G k 0 (d.load D G)
    let f := e.step D G k
    e.next = G.length + k ∧
    (k < stepCount D G - 1 → G.length + k ≤ D.length - 1 ∧ f.r = f.t.drop 1 ++ [bitAt D (G.length + k)] ∧
      f.next = G.length + k + 1) ∧
    (k = stepCount D G - 1 → f.r = e.r ∧ f.next = e.next)

/-- While a command divides, DIV.R has length g, DIV.T (after a step) has length g, DIV.Q has one bit per step made, and a
whole division makes N = n - g + 1 of them (10_state.md R37, 40_divider.md R102). -/
def Obligations.DividerRegistersKeepLengths : Prop :=
  ∀ (D G : Bits) (d : Div), IsGenerator G → G.length ≤ D.length →
    (∀ k, k ≤ stepCount D G →
      (Div.steps D G k 0 (d.load D G)).r.length = G.length ∧ (Div.steps D G k 0 (d.load D G)).q.length = k ∧
      (0 < k → (Div.steps D G k 0 (d.load D G)).t.length = G.length ∧ (Div.steps D G k 0 (d.load D G)).k = k - 1)) ∧
    (quotient D G).length = D.length - G.length + 1

/-- 40_divider.md R106: the remainder is the last XOR result without its leading slot, of length g - 1, and an
implementation that shifts on every step and takes the register's first g - 1 bits agrees. -/
def Obligations.ShiftOnEveryStepAgrees : Prop :=
  ∀ (D G : Bits) (d : Div), IsGenerator G → G.length ≤ D.length →
    divide D G = (Div.steps D G (stepCount D G) 0 (Div.load D G Div.atReset)).t.drop 1 ∧
    (divide D G).length = G.length - 1 ∧
    (shiftEveryStep D G (stepCount D G) 0 (d.load D G)).r.take (G.length - 1) = divide D G

/-- 40_divider.md R108: the closed form of remainder and quotient, and the codewords as the strings divisible by the
generator. -/
def Obligations.DivisionIsPolynomialDivision : Prop :=
  ∀ D G : Bits, IsGenerator G → G.length ≤ D.length →
    poly (divide D G) = poly D %ₘ poly G ∧ (divide D G).length = G.length - 1 ∧
    poly (quotient D G) = poly D /ₘ poly G ∧ (quotient D G).length = stepCount D G ∧
    (isZero (divide D G) = true ↔ poly G ∣ poly D)

/-- 40_divider.md R109: what the hidden state held before does not matter, and no register the host can read changes. -/
def Obligations.DivisionIsPure : Prop :=
  (∀ (D G : Bits) (d : Div), IsGenerator G → G.length ≤ D.length →
    (d.run D G).remainder = divide D G ∧ (d.run D G).q = quotient D G) ∧
  ∀ (D G : Bits) (s : State) (r : Reg), (s.runDivider D G).hostRead r = s.hostRead r

/-- Division is linear over XOR (40_divider.md R108, R111). -/
def Obligations.DivisionIsLinear : Prop :=
  ∀ D E G : Bits, IsGenerator G → G.length ≤ D.length → E.length = D.length →
    divide (xorBits D E) G = xorBits (divide D G) (divide E G)

/-- The corner cases of 40_divider.md R110. -/
def Obligations.DivisionCornerCases : Prop :=
  (∀ D G : Bits, IsGenerator G → D.length = G.length →
    divide D G = if bitAt D 0 then (xorBits D G).drop 1 else D.drop 1) ∧
  (∀ G : Bits, IsGenerator G → divide G G = zeros (G.length - 1)) ∧
  (∀ (G : Bits) (n : Nat), IsGenerator G → G.length ≤ n → divide (zeros n) G = zeros (G.length - 1)) ∧
  (∀ (D G : Bits) (m : Nat), IsGenerator G → G.length ≤ D.length → divide (zeros m ++ D) G = divide D G) ∧
  (∀ D : Bits, 2 ≤ D.length → divide D [true, false] = [bitAt D (D.length - 1)]) ∧
  (∀ (D : Bits) (g : Nat), 2 ≤ g → g ≤ D.length → divide D (true :: zeros (g - 1)) = D.drop (D.length - (g - 1)))

/-! ### DIVIDE -/

/-- DIVIDE completes: OUT is the remainder, CODE is OK, ERR_DETECTED, TIME_VALID and TIME are 0, and nothing else the host
can read changes (40_divider.md R110). -/
def Obligations.DivideCompletes : Prop :=
  ∀ (s : State) (D G : Bits), s.HasGenerator G → s.inA = syms D → G.length ≤ D.length →
    ∃ t, exec .divide s = .next t ∧ t.Results .ok false none (syms (divide D G)) ∧ s.SameConfig t ∧ s.Kept t

/-! ### CONFIG and the presets -/

/-- CONFIG loads a valid generator and initial value (41_codec.md R121, R122, R123). -/
def Obligations.ConfigLoads : Prop :=
  ∀ (s : State) (G V : Bits), s.inA = syms G → s.inB = syms V → IsGenerator G → V.length = G.length - 1 →
    ∃ t, exec .config s = .next t ∧ t.Results .ok false none [] ∧ t.HasConfig G V ∧ s.Kept t

/-- CONFIG refuses anything else, clears the configuration and completes with INVALID_GENERATOR_CONFIG (41_codec.md R121,
R122, R123; 60_exceptions.md R163). -/
def Obligations.ConfigRejects : Prop :=
  ∀ s : State,
    (¬ ∃ G V : Bits, s.inA = syms G ∧ s.inB = syms V ∧ IsGenerator G ∧ V.length = G.length - 1) →
      ∃ t, exec .config s = .next t ∧ ErrorCompletion .invalidGeneratorConfig s t ∧
        t.gen = [] ∧ t.iv = [] ∧ t.cfgValid = false

/-- 41_codec.md R124: a failed CONFIG clears the configuration; with none loaded every ENCODE, DECODE and DIVIDE completes
with NOT_CONFIGURED and loads none; and only CONFIG, CFG_CRC6 or CFG_CRC16, completing with OK, loads one. -/
def Obligations.FailedConfigLeavesNoCodec : Prop :=
  (∀ s t : State, exec .config s = .next t → t.code? = some .invalidGeneratorConfig →
    t.gen = [] ∧ t.iv = [] ∧ t.cfgValid = false) ∧
  (∀ (s : State) (i : Instr), s.cfgValid = false → (i = .divide ∨ ∃ b, i = .encode b ∨ i = .decode b) →
    ∃ t, exec i s = .next t ∧ t.code? = some .notConfigured ∧ t.cfgValid = false) ∧
  (∀ (s t : State), s.cfgValid = false → step s = .next t → t.cfgValid = true →
    ∃ a rest w i, s.inputs = a :: rest ∧ a.commandWord? { s with inputs := rest } = some w ∧ decodeCmd w = .cmd i ∧
      (i = .config ∨ i = .cfgCrc6 ∨ i = .cfgCrc16) ∧ t.code? = some .ok)

/-- CFG_CRC6 loads generator `1000011` and initial value `000000` and reads neither operand (42_presets.md R150). -/
def Obligations.CfgCrc6Loads : Prop :=
  ∀ s : State, ∃ t, exec .cfgCrc6 s = .next t ∧ t.Results .ok false none [] ∧ s.Kept t ∧ t.cfgValid = true ∧
    t.gen = [0x31, 0x30, 0x30, 0x30, 0x30, 0x31, 0x31] ∧ t.iv = [0x30, 0x30, 0x30, 0x30, 0x30, 0x30]

/-- CFG_CRC16 loads generator `10001000000100001` and sixteen 1s and reads neither operand (42_presets.md R151). -/
def Obligations.CfgCrc16Loads : Prop :=
  ∀ s : State, ∃ t, exec .cfgCrc16 s = .next t ∧ t.Results .ok false none [] ∧ s.Kept t ∧ t.cfgValid = true ∧
    t.gen = [0x31, 0x30, 0x30, 0x30, 0x31, 0x30, 0x30, 0x30, 0x30, 0x30, 0x30, 0x31, 0x30, 0x30, 0x30, 0x30, 0x31] ∧
    t.iv = [0x31, 0x31, 0x31, 0x31, 0x31, 0x31, 0x31, 0x31, 0x31, 0x31, 0x31, 0x31, 0x31, 0x31, 0x31, 0x31]

/-- 42_presets.md R153: a preset is a CONFIG that succeeds on the preset's strings, IN_A and IN_B left untouched. -/
def Obligations.PresetIsConfigOfItsStrings : Prop :=
  ∀ s : State,
    (∃ t, exec .cfgCrc6 s = .next t ∧ t.code? = some .ok ∧
      exec .config { s with inA := syms crc6Gen, inB := syms crc6IV } =
        .next { t with inA := syms crc6Gen, inB := syms crc6IV } ∧ t.inA = s.inA ∧ t.inB = s.inB) ∧
    (∃ t, exec .cfgCrc16 s = .next t ∧ t.code? = some .ok ∧
      exec .config { s with inA := syms crc16Gen, inB := syms crc16IV } =
        .next { t with inA := syms crc16Gen, inB := syms crc16IV } ∧ t.inA = s.inA ∧ t.inB = s.inB)

/-! ### ENCODE -/

/-- ENCODE completes: OUT is the dataword and the remainder of the extended dividend; with T = 1 TIME holds the draw
(41_codec.md R126). The draw stands for any value. -/
def Obligations.EncodeCompletes : Prop :=
  ∀ (s : State) (b : Bool) (d G V : Bits), s.HasConfig G V → s.inA = syms d →
    ∃ t, exec (.encode b) s = .next t ∧
      t.Results .ok false (reported b s) (syms (d ++ divide (V ++ d ++ zeros (G.length - 1)) G)) ∧
      s.SameConfig t ∧ s.Kept t

/-- 41_codec.md R125: the extended dividend, its length, the divider's first register value, and that ENCODE never raises
DIVIDEND_TOO_SHORT. -/
def Obligations.ExtendedDividendIsLongEnough : Prop :=
  (∀ d G V : Bits, IsGenerator G → V.length = G.length - 1 →
    let E := V ++ d ++ zeros (G.length - 1)
    extendedDividend V d G.length = E ∧ E.length = d.length + 2 * (G.length - 1) ∧ G.length ≤ E.length ∧
    ∀ x : Div, (x.load E G).r = V ++ [bitAt d 0] ∧ (d = [] → (x.load E G).r = V ++ [false])) ∧
  ∀ (s t : State) (b : Bool), exec (.encode b) s = .next t → t.code? ≠ some .dividendTooShort

/-- 41_codec.md R127: the length and the systematic property. -/
def Obligations.EncodeIsSystematic : Prop :=
  ∀ (s t : State) (b : Bool), exec (.encode b) s = .next t → t.code? = some .ok →
    t.out.length = s.inA.length + s.gen.length - 1 ∧ (bits? t.out).map (List.take s.inA.length) = bits? s.inA ∧
    (bits? t.out).isSome = true

/-- 41_codec.md R128: ENCODE's remainder in closed form, and for an all-zero initial value. -/
def Obligations.EncodeRemainderClosedForm : Prop :=
  ∀ (s t : State) (b : Bool) (d G V rem : Bits), s.HasConfig G V → s.inA = syms d →
    exec (.encode b) s = .next t → t.out = syms (d ++ rem) →
      poly rem = ((poly V * Polynomial.X ^ d.length + poly d) * Polynomial.X ^ (G.length - 1)) %ₘ poly G ∧
      (isZero V = true → poly rem = (poly d * Polynomial.X ^ (G.length - 1)) %ₘ poly G)

/-! ### DECODE -/

/-- DECODE completes: OUT is the codeword as received, ERR_DETECTED says whether the remainder of dividing it by the
generator is non-zero (41_codec.md R129). -/
def Obligations.DecodeCompletes : Prop :=
  ∀ (s : State) (b : Bool) (c G : Bits), s.HasGenerator G → s.inA = syms c → G.length ≤ c.length →
    ∃ t, exec (.decode b) s = .next t ∧ t.Results .ok (!isZero (divide c G)) (reported b s) (syms c) ∧
      s.SameConfig t ∧ s.Kept t

/-- 41_codec.md R130: DECODE divides the codeword itself and never reads IV: with any other IV it does the same. -/
def Obligations.DecodeNeverReadsIV : Prop :=
  (∀ (s t : State) (b : Bool) (V : Syms), exec (.decode b) s = .next t →
    exec (.decode b) { s with iv := V } = .next { t with iv := V }) ∧
  ∀ (s t : State) (b : Bool) (c G : Bits), s.HasGenerator G → s.inA = syms c → exec (.decode b) s = .next t →
    t.code? = some .ok → (t.errDetected = false ↔ poly G ∣ poly c)

/-- 41_codec.md R131: ERR_DETECTED is 1 iff the remainder has at least one 1 bit. -/
def Obligations.ErrorFlagIsNonZeroRemainder : Prop :=
  ∀ (s t : State) (b : Bool) (c G : Bits), s.HasGenerator G → s.inA = syms c → exec (.decode b) s = .next t →
    t.code? = some .ok → (t.errDetected = true ↔ ∃ i, i < G.length - 1 ∧ bitAt (divide c G) i = true)

/-- 41_codec.md R132: DECODE returns the codeword unchanged, and the host recovers the dataword of an encoded codeword as
its first len(OUT) - (g - 1) bits. -/
def Obligations.DecodeReturnsCodeword : Prop :=
  (∀ (s t : State) (b : Bool), exec (.decode b) s = .next t → t.code? = some .ok → t.out = s.inA) ∧
  ∀ (s t u : State) (b b' : Bool) (d G V : Bits), s.HasConfig G V → s.inA = syms d → exec (.encode b) s = .next t →
    exec (.decode b') { t with inA := t.out } = .next u → u.code? = some .ok →
      (bits? u.out).map (fun c => c.take (c.length - (G.length - 1))) = some d

/-! ### Priority of errors -/

/-- 60_exceptions.md R168: ILLEGAL_COMMAND first (the word is decoded before anything is looked at), then NOT_CONFIGURED,
then INVALID_BIT_STRING, then DIVIDEND_TOO_SHORT (DECODE and DIVIDE only); CONFIG and the presets are not subject to
NOT_CONFIGURED: CONFIG has one error code, the presets none. Each error in the list completes by R167 and leaves the
configuration. -/
def Obligations.ErrorsInPriorityOrder : Prop :=
  (∀ (s : State) (w : Word), (decodeCmd w).instr? = none →
    ∃ t, runCommand w s = .next t ∧ ErrorCompletion .illegalCommand s t ∧ s.SameConfig t) ∧
  (∀ (s : State) (i : Instr), (i = .divide ∨ ∃ b, i = .encode b ∨ i = .decode b) →
    (s.cfgValid = false → ∃ t, exec i s = .next t ∧ ErrorCompletion .notConfigured s t ∧ s.SameConfig t) ∧
    (s.cfgValid = true → validSyms s.inA = false →
      ∃ t, exec i s = .next t ∧ ErrorCompletion .invalidBitString s t ∧ s.SameConfig t)) ∧
  (∀ (s : State) (i : Instr) (D G : Bits), (i = .divide ∨ ∃ b, i = .decode b) → s.HasGenerator G → s.inA = syms D →
    D.length < G.length → ∃ t, exec i s = .next t ∧ ErrorCompletion .dividendTooShort s t ∧ s.SameConfig t) ∧
  (∀ s : State, ∃ t, exec .config s = .next t ∧ (t.code? = some .ok ∨ t.code? = some .invalidGeneratorConfig)) ∧
  (∀ s : State, (∃ t, exec .cfgCrc6 s = .next t ∧ t.code? = some .ok) ∧
    ∃ t, exec .cfgCrc16 s = .next t ∧ t.code? = some .ok)

/-! ### Round trips and errors -/

/-- The syndrome of a clean round trip (41_codec.md R133): decoding ENCODE's own output leaves
`poly(IVb) * x^(len(d) + g - 1) mod poly(G)`, and ERR_DETECTED is 0 exactly where that is zero. -/
def Obligations.RoundTripSyndrome : Prop :=
  ∀ (s t : State) (b b' : Bool) (d c G V : Bits), s.HasConfig G V → s.inA = syms d → 1 ≤ d.length →
    exec (.encode b) s = .next t → t.out = syms c →
      poly (divide c G) = (poly V * Polynomial.X ^ (d.length + G.length - 1)) %ₘ poly G ∧
      ∃ u, exec (.decode b') { t with inA := t.out } = .next u ∧ u.code? = some .ok ∧
        (u.errDetected = false ↔ (poly V * Polynomial.X ^ (d.length + G.length - 1)) %ₘ poly G = 0)

/-- With an all-zero initial value the round trip is clean (41_codec.md R133, first consequence). -/
def Obligations.CleanRoundTripZeroIV : Prop :=
  ∀ (s : State) (b b' : Bool) (d G V : Bits), s.HasConfig G V → s.inA = syms d → 1 ≤ d.length → isZero V = true →
    ∃ t u, exec (.encode b) s = .next t ∧ exec (.decode b') { t with inA := t.out } = .next u ∧
      u.code? = some .ok ∧ u.errDetected = false ∧ u.out = t.out

/-- With an initial value that is not all zeros and a generator whose last bit is 1, every clean round trip reports an error
(41_codec.md R133, second consequence; 90_conflicts.md C2). -/
def Obligations.NonZeroIVReportedIfGeneratorEndsInOne : Prop :=
  ∀ (s : State) (b b' : Bool) (d G V : Bits), s.HasConfig G V → s.inA = syms d → 1 ≤ d.length → isZero V = false →
    bitAt G (G.length - 1) = true →
      ∃ t u, exec (.encode b) s = .next t ∧ exec (.decode b') { t with inA := t.out } = .next u ∧
        u.code? = some .ok ∧ u.errDetected = true

/-- Under every configuration, DIVIDE over `IVb ++ c` leaves zeros(g - 1) (41_codec.md R133). The copy into IN_A is taken
as done. -/
def Obligations.DivideOverIVAndCodewordIsZero : Prop :=
  ∀ (s t : State) (b : Bool) (d G V : Bits), s.HasConfig G V → s.inA = syms d → exec (.encode b) s = .next t →
    ∃ u, exec .divide { t with inA := syms V ++ t.out } = .next u ∧ u.code? = some .ok ∧
      u.out = syms (zeros (G.length - 1))

/-- The codeword of an empty dataword is shorter than the generator: DECODE reports DIVIDEND_TOO_SHORT (41_codec.md R133,
90_conflicts.md C6). -/
def Obligations.EmptyDatawordDecodesTooShort : Prop :=
  ∀ (s t : State) (b b' : Bool) (G V : Bits), s.HasConfig G V → s.inA = [] → exec (.encode b) s = .next t →
    ∃ u, exec (.decode b') { t with inA := t.out } = .next u ∧ u.code? = some .dividendTooShort ∧ u.out = []

/-- One inverted bit of a codeword adds `x^(len(c)-1-i) mod poly(G)` to the clean syndrome, so it goes undetected exactly
where the two are equal (41_codec.md R134). -/
def Obligations.SingleBitSyndrome : Prop :=
  ∀ (s t : State) (b b' : Bool) (d c G V : Bits) (i : Nat), s.HasConfig G V → s.inA = syms d → 1 ≤ d.length →
    exec (.encode b) s = .next t → t.out = syms c → i < c.length →
      let S := (poly V * Polynomial.X ^ (d.length + G.length - 1)) %ₘ poly G
      let E := (Polynomial.X ^ (c.length - 1 - i) : Polynomial (ZMod 2)) %ₘ poly G
      poly (divide (flipAt c i) G) = S + E ∧
      ∃ u, exec (.decode b') { t with inA := syms (flipAt c i) } = .next u ∧ u.code? = some .ok ∧
        (u.errDetected = false ↔ E = S)

/-- With an all-zero initial value and a generator whose last bit is 1, every single-bit error is detected (41_codec.md
R134). -/
def Obligations.SingleBitErrorsDetected : Prop :=
  ∀ (s : State) (b b' : Bool) (d G V : Bits), s.HasConfig G V → s.inA = syms d → 1 ≤ d.length → isZero V = true →
    bitAt G (G.length - 1) = true →
      ∃ t c, exec (.encode b) s = .next t ∧ t.out = syms c ∧
        ∀ i, i < c.length → ∃ u, exec (.decode b') { t with inA := syms (flipAt c i) } = .next u ∧
          u.code? = some .ok ∧ u.errDetected = true

/-- Under the generator `1` followed by zeros, an inverted bit outside the last g - 1 of a codeword goes undetected,
whatever the initial value: DECODE reports ERR_DETECTED = 0 (41_codec.md R134). -/
def Obligations.PowerGeneratorMissesDataErrors : Prop :=
  ∀ (s t : State) (b b' : Bool) (d c V : Bits) (g i : Nat), s.HasConfig (true :: zeros (g - 1)) V →
    s.inA = syms d → exec (.encode b) s = .next t → t.out = syms c → i < c.length - (g - 1) →
      ∃ v, exec (.decode b') { t with inA := syms (flipAt c i) } = .next v ∧ v.code? = some .ok ∧ v.errDetected = false

/-- "An error pattern equal to G placed at any offset inside the codeword … leaves the remainder unchanged. So with IV = 0
it goes undetected" (41_codec.md R134, 90_conflicts.md C3): the first clause of any string, the second of ENCODE's output
under an all-zero initial value. -/
def Obligations.GeneratorPatternKeepsRemainder : Prop :=
  (∀ (c G : Bits) (m n : Nat), IsGenerator G → m + G.length + n = c.length →
    divide (xorBits c (zeros m ++ G ++ zeros n)) G = divide c G) ∧
  ∀ (s t : State) (b b' : Bool) (d c G V : Bits) (m n : Nat), s.HasConfig G V → isZero V = true → s.inA = syms d →
    exec (.encode b) s = .next t → t.out = syms c → m + G.length + n = c.length →
      ∃ u, exec (.decode b') { t with inA := syms (xorBits c (zeros m ++ G ++ zeros n)) } = .next u ∧
        u.code? = some .ok ∧ u.errDetected = false

/-! ### Flags and completion -/

/-- 10_state.md R25: ERR_DETECTED after a command is `not isZero(remainder)` for a DECODE that completes with OK, and 0
after every other completion; its reset value is 0. -/
def Obligations.ErrDetectedOnlyFromDecode : Prop :=
  (∀ (s t : State) (a : Input) (rest : List Input) (w : Word),
    s.inputs = a :: rest → a.commandWord? { s with inputs := rest } = some w → step s = .next t →
      (∀ (b : Bool) (c G : Bits), decodeCmd w = .cmd (.decode b) → t.code? = some .ok → s.inA = syms c → s.gen = syms G →
        t.errDetected = !isZero (divide c G)) ∧
      (¬ ((∃ b, decodeCmd w = .cmd (.decode b)) ∧ t.code? = some .ok) → t.errDetected = false)) ∧
  ∀ m : MaxLen, (State.resetOf m).errDetected = false

/-- 10_state.md R26, R33: TIME_VALID is 1 iff the last command was an ENCODE or DECODE issued with T = 1 that completed with
OK; TIME then holds the draw, and otherwise 0; a step that issues no command and is no reset leaves both, and the other
results (70_reset_and_hazards.md R194); both are 0 at reset. -/
def Obligations.TimeValidIffTimedOk : Prop :=
  (∀ (s t : State) (a : Input) (rest : List Input) (w : Word),
    s.inputs = a :: rest → a.commandWord? { s with inputs := rest } = some w → step s = .next t →
      (t.timeValid = true ↔
        (decodeCmd w = .cmd (.encode true) ∨ decodeCmd w = .cmd (.decode true)) ∧ t.code? = some .ok) ∧
      (t.timeValid = true → t.time = Config.timeDraw s.draws) ∧ (t.timeValid = false → t.time = 0)) ∧
  (∀ (s t : State) (a : Input) (rest : List Input),
    s.inputs = a :: rest → a.commandWord? { s with inputs := rest } = none → a ≠ .reset → step s = .next t →
      t.timeValid = s.timeValid ∧ t.time = s.time ∧ t.status = s.status ∧ t.out = s.out) ∧
  ∀ m : MaxLen, (State.resetOf m).timeValid = false ∧ (State.resetOf m).time = 0

/-- The report "has no effect on the returned value": OUT, CODE and ERR_DETECTED do not depend on T or the draw
(60_exceptions.md R173). -/
def Obligations.TimingReportHasNoEffect : Prop :=
  (∀ (s t : State), exec (.encode true) s = .next t →
    ∃ u, exec (.encode false) s = .next u ∧ u.out = t.out ∧ u.codeField = t.codeField ∧ u.errDetected = t.errDetected) ∧
  ∀ (s t : State), exec (.decode true) s = .next t →
    ∃ u, exec (.decode false) s = .next u ∧ u.out = t.out ∧ u.codeField = t.codeField ∧ u.errDetected = t.errDetected

/-- 20_memory.md R63: ENCODE, DECODE and DIVIDE depend only on the configuration, the command, IN_A and the draw: two
states that agree on these give the same OUT, CODE and ERR_DETECTED (and, at the same draw, TIME), whatever else they
hold and whatever ran before. -/
def Obligations.ResultsDependOnlyOnInputs : Prop :=
  ∀ (s s' t : State) (i : Instr), (i = .divide ∨ ∃ b, i = .encode b ∨ i = .decode b) →
    s'.gen = s.gen → s'.iv = s.iv → s'.cfgValid = s.cfgValid → s'.inA = s.inA → exec i s = .next t →
      ∃ t', exec i s' = .next t' ∧ t'.out = t.out ∧ t'.codeField = t.codeField ∧ t'.errDetected = t.errDetected ∧
        t'.timeValid = t.timeValid ∧ (s'.draws = s.draws → t'.time = t.time)

/-- The same command again, its operands unchanged, gives the same code, output and error flag (60_exceptions.md R169,
10_state.md R28). -/
def Obligations.SameCommandAgainGivesSame : Prop :=
  ∀ (s t : State) (i : Instr), exec i s = .next t →
    ∃ u, exec i t = .next u ∧ u.codeField = t.codeField ∧ u.out = t.out ∧ u.errDetected = t.errDetected ∧ t.SameConfig u

/-- Every word written to COMMAND completes: from every state that meets the invariant the step answers a next state; and
wherever it does, CODE is written with one of the values 0 to 5 and exactly one completion is logged (10_state.md R23,
60_exceptions.md R161, R169). The history, which also notes what a copy into COMMAND read, is the model's own (log 8), and
so is the copy as one step (log 9). -/
def Obligations.EveryCommandCompletesOnce : Prop :=
  ∀ (s : State) (a : Input) (rest : List Input) (w : Word),
    s.inputs = a :: rest → a.commandWord? { s with inputs := rest } = some w →
      (s.Inv → ∃ t, step s = .next t) ∧
      ∀ t, step s = .next t → ∃ c : Code, t.codeField = c.toBits ∧ t.codeField.toNat ≤ 5 ∧
        (∀ v, a = .write 0 v → t.history = .completed c :: s.history) ∧
        (∀ r : Reg, a = .copy 0 r.number → t.history = .completed c :: .readBack r (s.hostRead r) :: s.history)

/-! ### Frames -/

/-- The frame of ENCODE, DECODE and DIVIDE, which write only OUT, CODE, ERR_DETECTED, TIME_VALID and TIME. -/
def Obligations.CodecCommandsFrame : Prop :=
  ∀ (s t : State) (i : Instr), (i = .divide ∨ ∃ b, i = .encode b ∨ i = .decode b) → exec i s = .next t →
    s.Kept t ∧ s.SameConfig t

/-- The frame of CONFIG, CFG_CRC6 and CFG_CRC16, which also write GEN, IV and CFG_VALID. -/
def Obligations.ConfigCommandsFrame : Prop :=
  ∀ (s t : State) (i : Instr), (i = .config ∨ i = .cfgCrc6 ∨ i = .cfgCrc16) → exec i s = .next t →
    s.Kept t ∧ t.errDetected = false ∧ t.timeValid = false ∧ t.time = 0 ∧ t.out = []

/-- 10_state.md R39: only CONFIG (word 1), CFG_CRC6 (word 5), CFG_CRC16 (word 6) and reset change GEN, IV and CFG_VALID. -/
def Obligations.ConfigurationIsImmutable : Prop :=
  ∀ (s t : State) (a : Input) (rest : List Input), s.inputs = a :: rest → step s = .next t → a ≠ .reset →
    (∀ w, a.commandWord? { s with inputs := rest } = some w → w ≠ 1 ∧ w ≠ 5 ∧ w ≠ 6) → s.SameConfig t

/-! ### The host port -/

/-- 10_state.md R34: a write to a read-only register changes no state and starts no command. -/
def Obligations.ReadOnlyWritesIgnored : Prop :=
  ∀ (s : State) (rest : List Input) (r : Reg) (v : RegValue),
    (r = .status ∨ r = .out ∨ r = .gen ∨ r = .iv ∨ r = .time) → r.takes v = true →
      s.inputs = .write r.number v :: rest → step s = .next { s with inputs := rest }

/-- 20_memory.md R59, R51: a write to COMMAND runs a command; a write to IN_A or IN_B (of at most MAXLEN symbols) only
stores the value; a write to a read-only register has no effect; a read returns the whole value, COMMAND reading 0
(10_state.md R21), and changes nothing but what the host knows, so a second read returns the same. -/
def Obligations.AccessSideEffects : Prop :=
  (∀ (s : State) (rest : List Input) (w : Word), s.inputs = .write 0 (.word w) :: rest →
    step s = runCommand w { s with inputs := rest }) ∧
  (∀ (s : State) (rest : List Input) (S : Syms), withinMaxLen s.maxLen S.length = true →
    s.inputs = .write 2 (.syms S) :: rest → step s = .next { s with inA := S, inputs := rest }) ∧
  (∀ (s : State) (rest : List Input) (S : Syms), withinMaxLen s.maxLen S.length = true →
    s.inputs = .write 3 (.syms S) :: rest → step s = .next { s with inB := S, inputs := rest }) ∧
  (∀ (s : State) (rest : List Input) (n : Nat) (v : RegValue), s.inputs = .write n v :: rest →
    (n = 1 ∨ 4 ≤ n ∧ n ≤ 7) → ∀ t, step s = .next t → t = { s with inputs := rest }) ∧
  (∀ (s : State) (rest : List Input) (r : Reg), s.inputs = .read r.number :: rest →
    step s = .next { s with inputs := rest, history := .readBack r (s.hostRead r) :: s.history }) ∧
  (∀ (s : State) (rest : List Input) (r : Reg), s.inputs = .read r.number :: .read r.number :: rest →
    ∃ t u, step s = .next t ∧ step t = .next u ∧
      u = { s with inputs := rest,
                   history := .readBack r (s.hostRead r) :: .readBack r (s.hostRead r) :: s.history }) ∧
  ∀ s : State,
    s.hostRead .command = .word 0 ∧ s.hostRead .status = .word s.status ∧ s.hostRead .inA = .syms s.inA ∧
    s.hostRead .inB = .syms s.inB ∧ s.hostRead .out = .syms s.out ∧ s.hostRead .gen = .syms s.gen ∧
    s.hostRead .iv = .syms s.iv ∧ s.hostRead .time = .dword s.time

/-- Register numbers 8 and above do not exist, and a write of more than MAXLEN symbols into IN_A or IN_B is no move of the
host's (10_state.md R35). That such an access ends the run with a refusal of its own name is the model's choice (log 6), and
so is the treatment of a copy, one access that reads and writes (log 9). -/
def Obligations.OutsideAccessesRefused : Prop :=
  (∀ (s : State) (rest : List Input) (n : Nat) (v : RegValue), 8 ≤ n →
    (s.inputs = .write n v :: rest ∨ s.inputs = .read n :: rest) → step s = .refused (.noSuchRegister n)) ∧
  (∀ (s : State) (rest : List Input) (n m : Nat), (8 ≤ m ∨ 8 ≤ n ∧ m ≤ 7) → s.inputs = .copy n m :: rest →
    ∃ k, 8 ≤ k ∧ step s = .refused (.noSuchRegister k)) ∧
  ∀ (s : State) (rest : List Input) (S : Syms) (extra : Nat), s.maxLen = .atLeast17 extra → 17 + extra < S.length →
    (s.inputs = .write 2 (.syms S) :: rest → step s = .refused (.tooManySymbols .inA)) ∧
    (s.inputs = .write 3 (.syms S) :: rest → step s = .refused (.tooManySymbols .inB))

/-- `WR IN_A, OUT` (30_encoding.md R80): the host reads OUT and writes what it read, if MAXLEN allows (log 9). -/
def Obligations.CopyOutIntoOperand : Prop :=
  ∀ (s : State) (rest : List Input), s.inputs = .copy 2 4 :: rest → withinMaxLen s.maxLen s.out.length = true →
    step s = .next { s with inA := s.out, inputs := rest, history := .readBack .out (.syms s.out) :: s.history }

/-! ### Reset -/

/-- Every register the host can read takes its reset value (70_reset_and_hazards.md R190). Reset as an input during a run,
which keeps MAXLEN and the accesses to come, is the model's choice (log 5). -/
def Obligations.ResetValues : Prop :=
  (∀ m : MaxLen, ∀ r : Reg, (State.resetOf m).hostRead r =
    match r with
    | .command => .word 0x00000000
    | .status => .word 0x00000000
    | .time => .dword 0
    | _ => .syms []) ∧
  ∀ (s : State) (rest : List Input), s.inputs = .reset :: rest →
    ∃ t, step s = .next t ∧ t.maxLen = s.maxLen ∧ t.inputs = rest ∧ t.code? = some .ok ∧ t.cfgValid = false ∧
      t.errDetected = false ∧ t.timeValid = false ∧
      ∀ r : Reg, t.hostRead r = (State.resetOf s.maxLen).hostRead r

/-! ### The invariant and whole runs -/

/-- The invariant holds after reset, whatever MAXLEN is and whatever accesses are to come. -/
def Obligations.ResetMeetsInvariant : Prop :=
  ∀ (m : MaxLen) (script : List Input), State.Inv { State.resetOf m with inputs := script }

/-- Every step keeps the invariant, and MAXLEN. -/
def Obligations.StepKeepsInvariant : Prop :=
  ∀ s t : State, s.Inv → step s = .next t → t.Inv ∧ t.maxLen = s.maxLen

/-- 10_state.md R38: the configuration invariant, in every state reachable from reset. -/
def Obligations.ReachableConfigurationValid : Prop :=
  ∀ s : State, Reachable s →
    (s.cfgValid = true ∧ (∃ G V : Bits, s.gen = syms G ∧ s.iv = syms V ∧ IsGenerator G ∧ V.length = G.length - 1)) ∨
    (s.cfgValid = false ∧ s.gen = [] ∧ s.iv = [])

/-- 10_state.md R22, R27: in every reachable state STATUS reads as its four fields in their places, and every other bit as
0. -/
def Obligations.StatusReadsAsItsFields : Prop :=
  ∀ s : State, Reachable s →
    s.status = statusWord s.timeValid s.errDetected s.cfgValid s.codeField ∧ s.status &&& reservedMask = 0 ∧
    s.codeField.toNat ≤ 5

/-- In a state that meets the invariant no step faults, and a step whose access is admitted goes on: no command is ever
refused (60_exceptions.md R160, R170). -/
def Obligations.AdmittedAccessesGoOn : Prop :=
  ∀ s : State, s.Inv →
    (∀ f, step s ≠ .fault f) ∧
    ((∀ a rest, s.inputs = a :: rest → a.admitted s = true) → ∃ t, step s = .next t) ∧
    ∀ (w : Word) (rest : List Input), s.inputs = .write 0 (.word w) :: rest → ∃ t, step s = .next t

/-- A host script of well-formed accesses runs to its end, one access a step, from any state that meets the invariant
(70_reset_and_hazards.md R198). -/
def Obligations.WellFormedScriptsRunToTheEnd : Prop :=
  ∀ s : State, s.Inv → (∀ a ∈ s.inputs, a.wellFormed s.maxLen = true) →
    ∀ k, ∃ t, Host.Core.run Sys2Proof.core k s = .next t ∧ t.inputs = s.inputs.drop k ∧ t.Inv

/-! ### The host's side -/

/-- 20_memory.md R56: byte `b` becomes `b[7], …, b[0]`, and the bytes follow each other in input order. -/
def Obligations.ByteToBitBoundary : Prop :=
  (∀ (b : BitVec 8) (j : Nat), j < 8 → bitAt (byteBits b) j = b.getLsbD (7 - j)) ∧
  (∀ b : BitVec 8, (byteBits b).length = 8) ∧
  (∀ (b : BitVec 8) (bs : List (BitVec 8)), bytesBits (b :: bs) = byteBits b ++ bytesBits bs) ∧
  bytesBits [] = [] ∧
  bytesBits [0x41] = [false, true, false, false, false, false, false, true]

/-- 30_encoding.md R81: each pseudo-instruction is the lines it expands to. -/
def Obligations.PseudoInstructionsExpand : Prop :=
  (∀ gen iv : String, (ScriptLine.cfg gen iv).inputs? =
    scriptInputs? [.wr "IN_A" (.chars gen), .wr "IN_B" (.chars iv), .cmd "CONFIG" false]) ∧
  (∀ (t : Bool) (d : String), (ScriptLine.enc t d).inputs? =
    scriptInputs? [.wr "IN_A" (.chars d), .cmd "ENCODE" t]) ∧
  (∀ (t : Bool) (c : String), (ScriptLine.dec t c).inputs? =
    scriptInputs? [.wr "IN_A" (.chars c), .cmd "DECODE" t]) ∧
  (∀ D : String, (ScriptLine.div D).inputs? = scriptInputs? [.wr "IN_A" (.chars D), .cmd "DIVIDE" false])
end

