-- ==== Sys2Proof/Laws/Operands.lean ====
section
/-! SUPPORT. Laws of bit strings, symbols and the configuration strings (00_scope.md R6, R9; 41_codec.md R121, R122). -/

namespace Sys2Proof
namespace Machine

@[simp] theorem length_zeros (n : Nat) : (zeros n).length = n := by simp [zeros]

@[simp] theorem length_ones (n : Nat) : (ones n).length = n := by simp [ones]

@[simp] theorem isZero_zeros (n : Nat) : isZero (zeros n) = true := by simp [isZero, zeros]

@[simp] theorem length_xorBits (a b : Bits) : (xorBits a b).length = min a.length b.length := by simp [xorBits]

@[simp] theorem bitAt_zeros (n i : Nat) : bitAt (zeros n) i = false := by
  simp [bitAt, zeros]

@[simp] theorem length_syms (s : Bits) : (syms s).length = s.length := by simp [syms]

@[simp] theorem syms_nil : syms [] = [] := rfl

@[simp] theorem syms_append (s t : Bits) : syms (s ++ t) = syms s ++ syms t := by simp [syms]

@[simp] theorem bitOf_symOf (b : Bool) : bitOf? (symOf b) = some b := by cases b <;> rfl

theorem symOf_of_bitOf {c : Sym} {b : Bool} (h : bitOf? c = some b) : symOf b = c := by
  unfold bitOf? at h
  split at h
  · cases h; simp_all [symOf]
  · split at h
    · cases h; simp_all [symOf]
    · cases h

@[simp] theorem validSyms_syms (s : Bits) : validSyms (syms s) = true := by
  simp [validSyms, syms]

@[simp] theorem validSyms_append (S T : Syms) : validSyms (S ++ T) = (validSyms S && validSyms T) := by
  simp [validSyms]

@[simp] theorem bits_syms (s : Bits) : bits? (syms s) = some s := by
  induction s with
  | nil => rfl
  | cons b s ih =>
    have : bits? (symOf b :: syms s) = some (b :: s) := by simp [bits?, ih]
    exact this

/-- `bits(S)` is defined exactly where `S` is the symbols of a bit string, and then gives it back. -/
theorem bits_eq_some {S : Syms} {s : Bits} : bits? S = some s ↔ S = syms s := by
  constructor
  · intro h
    induction S generalizing s with
    | nil => cases h; rfl
    | cons c S ih =>
      unfold bits? at h
      split at h
      · rename_i b t hb ht
        cases h
        rw [ih ht, ← symOf_of_bitOf hb]
        rfl
      · cases h
  · rintro rfl
    exact bits_syms s

/-- `bits(S)` is defined exactly where `validSyms(S)` holds (00_scope.md R9). -/
theorem bits_isSome (S : Syms) : (bits? S).isSome = validSyms S := by
  induction S with
  | nil => rfl
  | cons c S ih =>
    have hv : validSyms (c :: S) = ((bitOf? c).isSome && validSyms S) := rfl
    have hb : bits? (c :: S) = match bitOf? c, bits? S with | some b, some s => some (b :: s) | _, _ => none := rfl
    rw [hv, ← ih, hb]
    cases bitOf? c <;> cases bits? S <;> rfl

theorem bits_eq_none {S : Syms} : bits? S = none ↔ validSyms S = false := by
  rw [← bits_isSome]
  cases bits? S <;> simp

theorem validSyms_iff {S : Syms} : validSyms S = true ↔ ∃ s, S = syms s := by
  rw [← bits_isSome, Option.isSome_iff_exists]
  exact exists_congr fun _ => bits_eq_some

theorem syms_injective {s t : Bits} (h : syms s = syms t) : s = t := by
  have := congrArg bits? h
  simpa using this

/-- A valid generator, as a bit string (40_divider.md R100). -/
@[simp] theorem validGen_syms (G : Bits) : validGen (syms G) = (decide (2 ≤ G.length) && bitAt G 0) := by
  cases G with
  | nil => rfl
  | cons b G =>
    have hs : syms (b :: G) = symOf b :: syms G := rfl
    have hv := validSyms_syms (b :: G)
    rw [hs] at hv
    simp only [validGen, hs, hv, List.head?_cons, Option.bind_some, bitOf_symOf, List.length_cons, length_syms, Bool.true_and]
    cases b <;> simp [bitAt]

/-- A valid initial value, as a bit string. -/
@[simp] theorem validIV_syms (V : Bits) (A : Syms) : validIV (syms V) A = decide (V.length = A.length - 1) := by
  simp [validIV]

theorem validSyms_of_validGen {A : Syms} (h : validGen A = true) : validSyms A = true := by
  simp only [validGen, Bool.and_eq_true] at h
  exact h.1.1

theorem validSyms_of_validIV {A B : Syms} (h : validIV B A = true) : validSyms B = true := by
  simp only [validIV, Bool.and_eq_true] at h
  exact h.1

theorem two_le_of_validGen {A : Syms} (h : validGen A = true) : 2 ≤ A.length := by
  simp only [validGen, Bool.and_eq_true, decide_eq_true_eq] at h
  exact h.1.2

theorem length_of_validIV {A B : Syms} (h : validIV B A = true) : B.length = A.length - 1 := by
  simp only [validIV, Bool.and_eq_true, decide_eq_true_eq] at h
  exact h.2

/-- `G` is defined exactly where GEN is a valid generator. -/
theorem generator_eq_some {s : State} {G : Bits} :
    s.generator? = some G ↔ s.gen = syms G ∧ validGen (syms G) = true := by
  unfold State.generator?
  constructor
  · intro h
    split at h
    · rename_i hv
      have := bits_eq_some.1 h
      exact ⟨this, this ▸ hv⟩
    · cases h
  · rintro ⟨h, hv⟩
    rw [h, if_pos hv, bits_syms]

/-- `IVb` is defined exactly where IV is valid for GEN. -/
theorem initialValue_eq_some {s : State} {V : Bits} :
    s.initialValue? = some V ↔ s.iv = syms V ∧ validIV (syms V) s.gen = true := by
  unfold State.initialValue?
  constructor
  · intro h
    split at h
    · rename_i hv
      have := bits_eq_some.1 h
      exact ⟨this, this ▸ hv⟩
    · cases h
  · rintro ⟨h, hv⟩
    rw [h, if_pos hv, bits_syms]

/-- The length of the extended dividend (41_codec.md R125). -/
@[simp] theorem length_extendedDividend (ivb d : Bits) (g : Nat) :
    (extendedDividend ivb d g).length = ivb.length + d.length + (g - 1) := by
  simp [extendedDividend, Nat.add_assoc]

end Machine
end Sys2Proof
end

