-- ==== Sys2Proof/Laws/Divider.lean ====
section
/-! SUPPORT. Laws of the divider's datapath, one lemma per field per operation (40_divider.md R101 to R106). -/

namespace Sys2Proof
namespace Machine

section
variable (D G : Bits) (k : Nat) (d : Div)

@[simp] theorem load_r : (d.load D G).r = D.take G.length := rfl
@[simp] theorem load_t : (d.load D G).t = d.t := rfl
@[simp] theorem load_k : (d.load D G).k = d.k := rfl
@[simp] theorem load_next : (d.load D G).next = G.length := rfl
@[simp] theorem load_q : (d.load D G).q = [] := rfl

@[simp] theorem subtract_r : (d.subtract G k).r = d.r := rfl
@[simp] theorem subtract_t :
    (d.subtract G k).t = xorBits d.r (if bitAt d.r 0 then G else zeros G.length) := rfl
@[simp] theorem subtract_k : (d.subtract G k).k = k := rfl
@[simp] theorem subtract_next : (d.subtract G k).next = d.next := rfl
@[simp] theorem subtract_q : (d.subtract G k).q = d.q ++ [bitAt d.r 0] := rfl

@[simp] theorem refill_r : (d.refill D).r = d.t.drop 1 ++ [bitAt D d.next] := rfl
@[simp] theorem refill_t : (d.refill D).t = d.t := rfl
@[simp] theorem refill_k : (d.refill D).k = d.k := rfl
@[simp] theorem refill_next : (d.refill D).next = d.next + 1 := rfl
@[simp] theorem refill_q : (d.refill D).q = d.q := rfl

/-- A step that is not the last refills. -/
theorem step_of_lt (h : k < stepCount D G - 1) : d.step D G k = (d.subtract G k).refill D := by
  unfold Div.step
  rw [if_pos h]

/-- The last step does not refill (90_conflicts.md C1). -/
theorem step_of_ge (h : stepCount D G - 1 ≤ k) : d.step D G k = d.subtract G k := by
  unfold Div.step
  rw [if_neg (Nat.not_lt.2 h)]

@[simp] theorem step_t :
    (d.step D G k).t = xorBits d.r (if bitAt d.r 0 then G else zeros G.length) := by
  unfold Div.step
  split <;> rfl

@[simp] theorem step_q : (d.step D G k).q = d.q ++ [bitAt d.r 0] := by
  unfold Div.step
  split <;> rfl

@[simp] theorem step_k : (d.step D G k).k = k := by
  unfold Div.step
  split <;> rfl

@[simp] theorem steps_zero : Div.steps D G 0 k d = d := rfl

theorem steps_succ (m : Nat) : Div.steps D G (m + 1) k d = Div.steps D G m (k + 1) (d.step D G k) := rfl

/-- A run's first steps, then the others. -/
theorem steps_add (m n : Nat) : Div.steps D G (m + n) k d = Div.steps D G n (k + m) (Div.steps D G m k d) := by
  induction m generalizing k d with
  | zero => simp
  | succ m ih =>
    rw [Nat.succ_add, steps_succ, steps_succ, ih]
    congr 1
    omega

/-- The XOR result has the generator's length where the register has it. -/
theorem length_step_t (h : d.r.length = G.length) : (d.step D G k).t.length = G.length := by
  rw [step_t, length_xorBits]
  split <;> simp [h]

/-- The register keeps the generator's length. -/
theorem length_step_r (hg : 1 ≤ G.length) (h : d.r.length = G.length) : (d.step D G k).r.length = G.length := by
  by_cases hk : k < stepCount D G - 1
  · rw [step_of_lt D G k d hk, refill_r]
    have := length_step_t D G k d h
    rw [step_of_lt D G k d hk, refill_t] at this
    simp only [List.length_append, List.length_drop, this, List.length_singleton]
    omega
  · rw [step_of_ge D G k d (Nat.le_of_not_lt hk)]
    exact h

theorem length_steps (hg : 1 ≤ G.length) (m : Nat) (h : d.r.length = G.length) :
    (Div.steps D G m k d).r.length = G.length := by
  induction m generalizing k d with
  | zero => exact h
  | succ m ih => exact ih (k + 1) _ (length_step_r D G k d hg h)

/-- The initial register has the generator's length (40_divider.md R101). -/
theorem length_load_r (hn : G.length ≤ D.length) : (d.load D G).r.length = G.length := by
  simp [hn]

/-- A whole run is the initialisation, N - 1 refilling steps, and one last step. -/
theorem run_eq :
    d.run D G = (Div.steps D G (D.length - G.length) 0 (d.load D G)).subtract G (D.length - G.length) := by
  unfold Div.run stepCount
  rw [steps_add, Nat.zero_add]
  have : Div.steps D G 1 (D.length - G.length) (Div.steps D G (D.length - G.length) 0 (d.load D G)) =
      (Div.steps D G (D.length - G.length) 0 (d.load D G)).step D G (D.length - G.length) := rfl
  rw [this, step_of_ge]
  unfold stepCount
  omega

/-- A remainder has length g - 1 (40_divider.md R106). -/
theorem length_run_remainder (hg : 1 ≤ G.length) (hn : G.length ≤ D.length) :
    (d.run D G).remainder.length = G.length - 1 := by
  unfold Div.remainder
  rw [run_eq, subtract_t, List.length_drop, length_xorBits,
    length_steps D G 0 _ hg _ (length_load_r D G d hn)]
  split <;> simp

end

theorem length_divide (D G : Bits) (hg : 1 ≤ G.length) (hn : G.length ≤ D.length) :
    (divide D G).length = G.length - 1 :=
  length_run_remainder D G Div.atReset hg hn

end Machine
end Sys2Proof
end

