-- ==== Sys2Proof/Laws/Status.lean ====
section
/-! SUPPORT. Laws of the STATUS word: what each field write leaves of each field (10_state.md R22 to R27). -/

namespace Sys2Proof
namespace Machine

theorem getLsbD_setBit (w : Word) (i j : Nat) (b : Bool) (hi : i < 32) :
    (setBit w i b).getLsbD j = if j = i then b else w.getLsbD j := by
  unfold setBit
  by_cases h : j = i
  · subst h; cases b <;> simp [hi]
  · have h' : ¬ i = j := fun e => h e.symm
    by_cases hj : j < 32
    · cases b <;> simp [h, hj]
    · have hw : w.getLsbD j = false := BitVec.getLsbD_of_ge w j (Nat.le_of_not_lt hj)
      cases b <;> simp [h, h', hj, hw]

theorem getLsbD_setLow4 (w : Word) (v : BitVec 4) (j : Nat) :
    (setLow4 w v).getLsbD j = if j < 4 then v.getLsbD j else w.getLsbD j := by
  unfold setLow4
  rw [BitVec.getLsbD_append]
  by_cases h : j < 4
  · simp [h]
  · by_cases hj : j < 32
    · have h1 : j - 4 < 28 := by omega
      have h2 : 4 + (j - 4) = j := by omega
      simp [h, h1, h2]
    · have hw : w.getLsbD j = false := BitVec.getLsbD_of_ge w j (Nat.le_of_not_lt hj)
      have h1 : ¬ j - 4 < 28 := by omega
      simp [h, h1, hw]

/-- Writing a bit sets it. -/
theorem bit_setBit_self (w : Word) (i : Nat) (b : Bool) (hi : i < 32) : (setBit w i b).getLsbD i = b := by
  rw [getLsbD_setBit _ _ _ _ hi, if_pos rfl]

/-- Writing a bit leaves every other bit. -/
theorem bit_setBit_ne (w : Word) (i j : Nat) (b : Bool) (hi : i < 32) (h : j ≠ i) :
    (setBit w i b).getLsbD j = w.getLsbD j := by
  rw [getLsbD_setBit _ _ _ _ hi, if_neg h]

/-- Writing CODE leaves every bit above it. -/
theorem bit_setLow4 (w : Word) (v : BitVec 4) (j : Nat) (h : 4 ≤ j) : (setLow4 w v).getLsbD j = w.getLsbD j := by
  rw [getLsbD_setLow4, if_neg (Nat.not_lt.2 h)]

/-- Writing CODE gives CODE that value. -/
@[simp] theorem extract_setLow4 (w : Word) (v : BitVec 4) : (setLow4 w v).extractLsb' 0 4 = v := by
  apply BitVec.eq_of_getLsbD_eq
  intro i hi
  simp [getLsbD_setLow4, hi]

/-- Writing a bit above CODE leaves CODE. -/
theorem extract_setBit (w : Word) (i : Nat) (b : Bool) (h4 : 4 ≤ i) (hi : i < 32) :
    (setBit w i b).extractLsb' 0 4 = w.extractLsb' 0 4 := by
  apply BitVec.eq_of_getLsbD_eq
  intro j hj
  have : j ≠ i := by omega
  simp [getLsbD_setBit _ _ _ _ hi, hj, this]

/-- The reserved bits are those of the mask's bit positions. -/
theorem getLsbD_reservedMask (j : Nat) (hj : j < 32) :
    reservedMask.getLsbD j = decide (4 ≤ j ∧ j ≠ 8 ∧ j ≠ 9 ∧ j ≠ 10) := by
  revert j
  decide

/-- Writing a field's bit leaves the reserved bits. -/
theorem setBit_reserved (w : Word) (i : Nat) (b : Bool) (h : i = 8 ∨ i = 9 ∨ i = 10) :
    setBit w i b &&& reservedMask = w &&& reservedMask := by
  apply BitVec.eq_of_getLsbD_eq
  intro j hj
  rw [BitVec.getLsbD_and, BitVec.getLsbD_and, getLsbD_setBit _ _ _ _ (by omega), getLsbD_reservedMask j hj]
  by_cases hji : j = i
  · have : ¬ (4 ≤ j ∧ j ≠ 8 ∧ j ≠ 9 ∧ j ≠ 10) := by omega
    simp [this]
  · simp [hji]

/-- Writing CODE leaves the reserved bits. -/
theorem setLow4_reserved (w : Word) (v : BitVec 4) : setLow4 w v &&& reservedMask = w &&& reservedMask := by
  apply BitVec.eq_of_getLsbD_eq
  intro j hj
  rw [BitVec.getLsbD_and, BitVec.getLsbD_and, getLsbD_setLow4, getLsbD_reservedMask j hj]
  by_cases h : j < 4
  · have : ¬ (4 ≤ j ∧ j ≠ 8 ∧ j ≠ 9 ∧ j ≠ 10) := by omega
    simp [this]
  · simp [h]

/-- A completion code is read back as itself (60_exceptions.md R161). -/
@[simp] theorem ofBits_toBits (c : Code) : Code.ofBits? c.toBits = some c := by
  cases c <;> rfl

theorem toBits_toNat_le (c : Code) : c.toBits.toNat ≤ 5 := by
  cases c <;> decide

theorem toBits_injective {c d : Code} (h : c.toBits = d.toBits) : c = d := by
  have := congrArg Code.ofBits? h
  simpa using this

end Machine
end Sys2Proof
end

