-- ==== Sys2Proof/Laws/State.lean ====
section
/-! SUPPORT. One lemma per field per update of State, and what the named fields of STATUS are after each. -/

namespace Sys2Proof
namespace Machine

/-! ### setCode -/

section
variable (s : State) (c : Code)

@[simp] theorem setCode_status : (s.setCode c).status = setLow4 s.status c.toBits := rfl
@[simp] theorem setCode_inA : (s.setCode c).inA = s.inA := rfl
@[simp] theorem setCode_inB : (s.setCode c).inB = s.inB := rfl
@[simp] theorem setCode_out : (s.setCode c).out = s.out := rfl
@[simp] theorem setCode_gen : (s.setCode c).gen = s.gen := rfl
@[simp] theorem setCode_iv : (s.setCode c).iv = s.iv := rfl
@[simp] theorem setCode_time : (s.setCode c).time = s.time := rfl
@[simp] theorem setCode_div : (s.setCode c).div = s.div := rfl
@[simp] theorem setCode_maxLen : (s.setCode c).maxLen = s.maxLen := rfl
@[simp] theorem setCode_inputs : (s.setCode c).inputs = s.inputs := rfl
@[simp] theorem setCode_history : (s.setCode c).history = s.history := rfl
@[simp] theorem setCode_draws : (s.setCode c).draws = s.draws := rfl

end

/-! ### setCfgValid -/

section
variable (s : State) (b : Bool)

@[simp] theorem setCfgValid_status : (s.setCfgValid b).status = setBit s.status 8 b := rfl
@[simp] theorem setCfgValid_inA : (s.setCfgValid b).inA = s.inA := rfl
@[simp] theorem setCfgValid_inB : (s.setCfgValid b).inB = s.inB := rfl
@[simp] theorem setCfgValid_out : (s.setCfgValid b).out = s.out := rfl
@[simp] theorem setCfgValid_gen : (s.setCfgValid b).gen = s.gen := rfl
@[simp] theorem setCfgValid_iv : (s.setCfgValid b).iv = s.iv := rfl
@[simp] theorem setCfgValid_time : (s.setCfgValid b).time = s.time := rfl
@[simp] theorem setCfgValid_div : (s.setCfgValid b).div = s.div := rfl
@[simp] theorem setCfgValid_maxLen : (s.setCfgValid b).maxLen = s.maxLen := rfl
@[simp] theorem setCfgValid_inputs : (s.setCfgValid b).inputs = s.inputs := rfl
@[simp] theorem setCfgValid_history : (s.setCfgValid b).history = s.history := rfl
@[simp] theorem setCfgValid_draws : (s.setCfgValid b).draws = s.draws := rfl

end

/-! ### setErrDetected -/

section
variable (s : State) (b : Bool)

@[simp] theorem setErrDetected_status : (s.setErrDetected b).status = setBit s.status 9 b := rfl
@[simp] theorem setErrDetected_inA : (s.setErrDetected b).inA = s.inA := rfl
@[simp] theorem setErrDetected_inB : (s.setErrDetected b).inB = s.inB := rfl
@[simp] theorem setErrDetected_out : (s.setErrDetected b).out = s.out := rfl
@[simp] theorem setErrDetected_gen : (s.setErrDetected b).gen = s.gen := rfl
@[simp] theorem setErrDetected_iv : (s.setErrDetected b).iv = s.iv := rfl
@[simp] theorem setErrDetected_time : (s.setErrDetected b).time = s.time := rfl
@[simp] theorem setErrDetected_div : (s.setErrDetected b).div = s.div := rfl
@[simp] theorem setErrDetected_maxLen : (s.setErrDetected b).maxLen = s.maxLen := rfl
@[simp] theorem setErrDetected_inputs : (s.setErrDetected b).inputs = s.inputs := rfl
@[simp] theorem setErrDetected_history : (s.setErrDetected b).history = s.history := rfl
@[simp] theorem setErrDetected_draws : (s.setErrDetected b).draws = s.draws := rfl

end

/-! ### setTimeValid -/

section
variable (s : State) (b : Bool)

@[simp] theorem setTimeValid_status : (s.setTimeValid b).status = setBit s.status 10 b := rfl
@[simp] theorem setTimeValid_inA : (s.setTimeValid b).inA = s.inA := rfl
@[simp] theorem setTimeValid_inB : (s.setTimeValid b).inB = s.inB := rfl
@[simp] theorem setTimeValid_out : (s.setTimeValid b).out = s.out := rfl
@[simp] theorem setTimeValid_gen : (s.setTimeValid b).gen = s.gen := rfl
@[simp] theorem setTimeValid_iv : (s.setTimeValid b).iv = s.iv := rfl
@[simp] theorem setTimeValid_time : (s.setTimeValid b).time = s.time := rfl
@[simp] theorem setTimeValid_div : (s.setTimeValid b).div = s.div := rfl
@[simp] theorem setTimeValid_maxLen : (s.setTimeValid b).maxLen = s.maxLen := rfl
@[simp] theorem setTimeValid_inputs : (s.setTimeValid b).inputs = s.inputs := rfl
@[simp] theorem setTimeValid_history : (s.setTimeValid b).history = s.history := rfl
@[simp] theorem setTimeValid_draws : (s.setTimeValid b).draws = s.draws := rfl

end

/-! ### setTime -/

section
variable (s : State) (r : Option DWord)

@[simp] theorem setTime_status : (s.setTime r).status = setBit s.status 10 r.isSome := by cases r <;> rfl
@[simp] theorem setTime_inA : (s.setTime r).inA = s.inA := by cases r <;> rfl
@[simp] theorem setTime_inB : (s.setTime r).inB = s.inB := by cases r <;> rfl
@[simp] theorem setTime_out : (s.setTime r).out = s.out := by cases r <;> rfl
@[simp] theorem setTime_gen : (s.setTime r).gen = s.gen := by cases r <;> rfl
@[simp] theorem setTime_iv : (s.setTime r).iv = s.iv := by cases r <;> rfl
@[simp] theorem setTime_time : (s.setTime r).time = r.getD 0 := by cases r <;> rfl
@[simp] theorem setTime_div : (s.setTime r).div = s.div := by cases r <;> rfl
@[simp] theorem setTime_maxLen : (s.setTime r).maxLen = s.maxLen := by cases r <;> rfl
@[simp] theorem setTime_inputs : (s.setTime r).inputs = s.inputs := by cases r <;> rfl
@[simp] theorem setTime_history : (s.setTime r).history = s.history := by cases r <;> rfl
@[simp] theorem setTime_draws : (s.setTime r).draws = s.draws := by cases r <;> rfl

end

/-! ### releaseDivider -/

section
variable (s : State)

@[simp] theorem releaseDivider_status : (s.releaseDivider).status = s.status := rfl
@[simp] theorem releaseDivider_inA : (s.releaseDivider).inA = s.inA := rfl
@[simp] theorem releaseDivider_inB : (s.releaseDivider).inB = s.inB := rfl
@[simp] theorem releaseDivider_out : (s.releaseDivider).out = s.out := rfl
@[simp] theorem releaseDivider_gen : (s.releaseDivider).gen = s.gen := rfl
@[simp] theorem releaseDivider_iv : (s.releaseDivider).iv = s.iv := rfl
@[simp] theorem releaseDivider_time : (s.releaseDivider).time = s.time := rfl
@[simp] theorem releaseDivider_div : (s.releaseDivider).div = freeDiv s.draws := rfl
@[simp] theorem releaseDivider_maxLen : (s.releaseDivider).maxLen = s.maxLen := rfl
@[simp] theorem releaseDivider_inputs : (s.releaseDivider).inputs = s.inputs := rfl
@[simp] theorem releaseDivider_history : (s.releaseDivider).history = s.history := rfl
@[simp] theorem releaseDivider_draws : (s.releaseDivider).draws = s.draws + 1 := rfl

end

/-! ### loadConfig -/

section
variable (s : State) (A B : Syms)

@[simp] theorem loadConfig_status : (s.loadConfig A B).status = setBit s.status 8 true := rfl
@[simp] theorem loadConfig_inA : (s.loadConfig A B).inA = s.inA := rfl
@[simp] theorem loadConfig_inB : (s.loadConfig A B).inB = s.inB := rfl
@[simp] theorem loadConfig_out : (s.loadConfig A B).out = s.out := rfl
@[simp] theorem loadConfig_gen : (s.loadConfig A B).gen = A := rfl
@[simp] theorem loadConfig_iv : (s.loadConfig A B).iv = B := rfl
@[simp] theorem loadConfig_time : (s.loadConfig A B).time = s.time := rfl
@[simp] theorem loadConfig_div : (s.loadConfig A B).div = s.div := rfl
@[simp] theorem loadConfig_maxLen : (s.loadConfig A B).maxLen = s.maxLen := rfl
@[simp] theorem loadConfig_inputs : (s.loadConfig A B).inputs = s.inputs := rfl
@[simp] theorem loadConfig_history : (s.loadConfig A B).history = s.history := rfl
@[simp] theorem loadConfig_draws : (s.loadConfig A B).draws = s.draws := rfl

end

/-! ### clearConfig -/

section
variable (s : State)

@[simp] theorem clearConfig_status : (s.clearConfig).status = setBit s.status 8 false := rfl
@[simp] theorem clearConfig_inA : (s.clearConfig).inA = s.inA := rfl
@[simp] theorem clearConfig_inB : (s.clearConfig).inB = s.inB := rfl
@[simp] theorem clearConfig_out : (s.clearConfig).out = s.out := rfl
@[simp] theorem clearConfig_gen : (s.clearConfig).gen = [] := rfl
@[simp] theorem clearConfig_iv : (s.clearConfig).iv = [] := rfl
@[simp] theorem clearConfig_time : (s.clearConfig).time = s.time := rfl
@[simp] theorem clearConfig_div : (s.clearConfig).div = s.div := rfl
@[simp] theorem clearConfig_maxLen : (s.clearConfig).maxLen = s.maxLen := rfl
@[simp] theorem clearConfig_inputs : (s.clearConfig).inputs = s.inputs := rfl
@[simp] theorem clearConfig_history : (s.clearConfig).history = s.history := rfl
@[simp] theorem clearConfig_draws : (s.clearConfig).draws = s.draws := rfl

end

/-! ### runDivider -/

section
variable (s : State) (D G : Bits)

@[simp] theorem runDivider_status : (s.runDivider D G).status = s.status := rfl
@[simp] theorem runDivider_inA : (s.runDivider D G).inA = s.inA := rfl
@[simp] theorem runDivider_inB : (s.runDivider D G).inB = s.inB := rfl
@[simp] theorem runDivider_out : (s.runDivider D G).out = s.out := rfl
@[simp] theorem runDivider_gen : (s.runDivider D G).gen = s.gen := rfl
@[simp] theorem runDivider_iv : (s.runDivider D G).iv = s.iv := rfl
@[simp] theorem runDivider_time : (s.runDivider D G).time = s.time := rfl
@[simp] theorem runDivider_div : (s.runDivider D G).div = s.div.run D G := rfl
@[simp] theorem runDivider_maxLen : (s.runDivider D G).maxLen = s.maxLen := rfl
@[simp] theorem runDivider_inputs : (s.runDivider D G).inputs = s.inputs := rfl
@[simp] theorem runDivider_history : (s.runDivider D G).history = s.history := rfl
@[simp] theorem runDivider_draws : (s.runDivider D G).draws = s.draws := rfl

end

/-! ### complete -/

section
variable (s : State) (c : Code) (e : Bool) (r : Option DWord) (o : Syms)

@[simp] theorem complete_status : (s.complete c e r o).status = setLow4 (setBit (setBit s.status 10 r.isSome) 9 e) c.toBits := by cases r <;> rfl
@[simp] theorem complete_inA : (s.complete c e r o).inA = s.inA := by cases r <;> rfl
@[simp] theorem complete_inB : (s.complete c e r o).inB = s.inB := by cases r <;> rfl
@[simp] theorem complete_out : (s.complete c e r o).out = o := by cases r <;> rfl
@[simp] theorem complete_gen : (s.complete c e r o).gen = s.gen := by cases r <;> rfl
@[simp] theorem complete_iv : (s.complete c e r o).iv = s.iv := by cases r <;> rfl
@[simp] theorem complete_time : (s.complete c e r o).time = r.getD 0 := by cases r <;> rfl
@[simp] theorem complete_div : (s.complete c e r o).div = freeDiv s.draws := by cases r <;> rfl
@[simp] theorem complete_maxLen : (s.complete c e r o).maxLen = s.maxLen := by cases r <;> rfl
@[simp] theorem complete_inputs : (s.complete c e r o).inputs = s.inputs := by cases r <;> rfl
@[simp] theorem complete_history : (s.complete c e r o).history = .completed c :: s.history := by cases r <;> rfl
@[simp] theorem complete_draws : (s.complete c e r o).draws = s.draws + 1 := by cases r <;> rfl

end

/-! ### raise -/

section
variable (s : State) (c : Code)

@[simp] theorem raise_status : (s.raise c).status = setLow4 (setBit (setBit s.status 10 false) 9 false) c.toBits := rfl
@[simp] theorem raise_inA : (s.raise c).inA = s.inA := rfl
@[simp] theorem raise_inB : (s.raise c).inB = s.inB := rfl
@[simp] theorem raise_out : (s.raise c).out = [] := rfl
@[simp] theorem raise_gen : (s.raise c).gen = s.gen := rfl
@[simp] theorem raise_iv : (s.raise c).iv = s.iv := rfl
@[simp] theorem raise_time : (s.raise c).time = 0 := rfl
@[simp] theorem raise_div : (s.raise c).div = freeDiv s.draws := rfl
@[simp] theorem raise_maxLen : (s.raise c).maxLen = s.maxLen := rfl
@[simp] theorem raise_inputs : (s.raise c).inputs = s.inputs := rfl
@[simp] theorem raise_history : (s.raise c).history = .completed c :: s.history := rfl
@[simp] theorem raise_draws : (s.raise c).draws = s.draws + 1 := rfl

end

/-! ### applyReset -/

section
variable (s : State)

@[simp] theorem applyReset_status : (s.applyReset).status = 0 := rfl
@[simp] theorem applyReset_inA : (s.applyReset).inA = [] := rfl
@[simp] theorem applyReset_inB : (s.applyReset).inB = [] := rfl
@[simp] theorem applyReset_out : (s.applyReset).out = [] := rfl
@[simp] theorem applyReset_gen : (s.applyReset).gen = [] := rfl
@[simp] theorem applyReset_iv : (s.applyReset).iv = [] := rfl
@[simp] theorem applyReset_time : (s.applyReset).time = 0 := rfl
@[simp] theorem applyReset_div : (s.applyReset).div = freeDiv s.draws := rfl
@[simp] theorem applyReset_maxLen : (s.applyReset).maxLen = s.maxLen := rfl
@[simp] theorem applyReset_inputs : (s.applyReset).inputs = s.inputs := rfl
@[simp] theorem applyReset_history : (s.applyReset).history = s.history := rfl
@[simp] theorem applyReset_draws : (s.applyReset).draws = s.draws + 1 := rfl

end

/-! ### noteRead -/

section
variable (s : State) (x : Reg)

@[simp] theorem noteRead_status : (s.noteRead x).status = s.status := rfl
@[simp] theorem noteRead_inA : (s.noteRead x).inA = s.inA := rfl
@[simp] theorem noteRead_inB : (s.noteRead x).inB = s.inB := rfl
@[simp] theorem noteRead_out : (s.noteRead x).out = s.out := rfl
@[simp] theorem noteRead_gen : (s.noteRead x).gen = s.gen := rfl
@[simp] theorem noteRead_iv : (s.noteRead x).iv = s.iv := rfl
@[simp] theorem noteRead_time : (s.noteRead x).time = s.time := rfl
@[simp] theorem noteRead_div : (s.noteRead x).div = s.div := rfl
@[simp] theorem noteRead_maxLen : (s.noteRead x).maxLen = s.maxLen := rfl
@[simp] theorem noteRead_inputs : (s.noteRead x).inputs = s.inputs := rfl
@[simp] theorem noteRead_history : (s.noteRead x).history = .readBack x (s.hostRead x) :: s.history := rfl
@[simp] theorem noteRead_draws : (s.noteRead x).draws = s.draws := rfl

end

/-! ### The named fields of STATUS -/

section
variable (s : State)

@[simp] theorem setCode_codeField (c : Code) : (s.setCode c).codeField = c.toBits := by
  simp only [State.codeField, setCode_status, extract_setLow4]
@[simp] theorem setCode_codeName (c : Code) : (s.setCode c).code? = some c := by
  simp only [State.code?, State.codeField, setCode_status, extract_setLow4, ofBits_toBits]
@[simp] theorem setCode_cfgValid (c : Code) : (s.setCode c).cfgValid = s.cfgValid := by
  simp (disch := decide) only [State.cfgValid, setCode_status, bit_setLow4]
@[simp] theorem setCode_errDetected (c : Code) : (s.setCode c).errDetected = s.errDetected := by
  simp (disch := decide) only [State.errDetected, setCode_status, bit_setLow4]
@[simp] theorem setCode_timeValid (c : Code) : (s.setCode c).timeValid = s.timeValid := by
  simp (disch := decide) only [State.timeValid, setCode_status, bit_setLow4]

@[simp] theorem setCfgValid_codeField (b : Bool) : (s.setCfgValid b).codeField = s.codeField := by
  simp (disch := decide) only [State.codeField, setCfgValid_status, extract_setBit]
@[simp] theorem setCfgValid_codeName (b : Bool) : (s.setCfgValid b).code? = s.code? := by
  simp (disch := decide) only [State.code?, State.codeField, setCfgValid_status, extract_setBit]
@[simp] theorem setCfgValid_cfgValid (b : Bool) : (s.setCfgValid b).cfgValid = b := by
  simp (disch := decide) only [State.cfgValid, setCfgValid_status, bit_setBit_self]
@[simp] theorem setCfgValid_errDetected (b : Bool) : (s.setCfgValid b).errDetected = s.errDetected := by
  simp (disch := decide) only [State.errDetected, setCfgValid_status, bit_setBit_ne]
@[simp] theorem setCfgValid_timeValid (b : Bool) : (s.setCfgValid b).timeValid = s.timeValid := by
  simp (disch := decide) only [State.timeValid, setCfgValid_status, bit_setBit_ne]

@[simp] theorem setErrDetected_codeField (b : Bool) : (s.setErrDetected b).codeField = s.codeField := by
  simp (disch := decide) only [State.codeField, setErrDetected_status, extract_setBit]
@[simp] theorem setErrDetected_codeName (b : Bool) : (s.setErrDetected b).code? = s.code? := by
  simp (disch := decide) only [State.code?, State.codeField, setErrDetected_status, extract_setBit]
@[simp] theorem setErrDetected_cfgValid (b : Bool) : (s.setErrDetected b).cfgValid = s.cfgValid := by
  simp (disch := decide) only [State.cfgValid, setErrDetected_status, bit_setBit_ne]
@[simp] theorem setErrDetected_errDetected (b : Bool) : (s.setErrDetected b).errDetected = b := by
  simp (disch := decide) only [State.errDetected, setErrDetected_status, bit_setBit_self]
@[simp] theorem setErrDetected_timeValid (b : Bool) : (s.setErrDetected b).timeValid = s.timeValid := by
  simp (disch := decide) only [State.timeValid, setErrDetected_status, bit_setBit_ne]

@[simp] theorem setTimeValid_codeField (b : Bool) : (s.setTimeValid b).codeField = s.codeField := by
  simp (disch := decide) only [State.codeField, setTimeValid_status, extract_setBit]
@[simp] theorem setTimeValid_codeName (b : Bool) : (s.setTimeValid b).code? = s.code? := by
  simp (disch := decide) only [State.code?, State.codeField, setTimeValid_status, extract_setBit]
@[simp] theorem setTimeValid_cfgValid (b : Bool) : (s.setTimeValid b).cfgValid = s.cfgValid := by
  simp (disch := decide) only [State.cfgValid, setTimeValid_status, bit_setBit_ne]
@[simp] theorem setTimeValid_errDetected (b : Bool) : (s.setTimeValid b).errDetected = s.errDetected := by
  simp (disch := decide) only [State.errDetected, setTimeValid_status, bit_setBit_ne]
@[simp] theorem setTimeValid_timeValid (b : Bool) : (s.setTimeValid b).timeValid = b := by
  simp (disch := decide) only [State.timeValid, setTimeValid_status, bit_setBit_self]

@[simp] theorem loadConfig_codeField (A B : Syms) : (s.loadConfig A B).codeField = s.codeField := by
  simp (disch := decide) only [State.codeField, loadConfig_status, extract_setBit]
@[simp] theorem loadConfig_codeName (A B : Syms) : (s.loadConfig A B).code? = s.code? := by
  simp (disch := decide) only [State.code?, State.codeField, loadConfig_status, extract_setBit]
@[simp] theorem loadConfig_cfgValid (A B : Syms) : (s.loadConfig A B).cfgValid = true := by
  simp (disch := decide) only [State.cfgValid, loadConfig_status, bit_setBit_self]
@[simp] theorem loadConfig_errDetected (A B : Syms) : (s.loadConfig A B).errDetected = s.errDetected := by
  simp (disch := decide) only [State.errDetected, loadConfig_status, bit_setBit_ne]
@[simp] theorem loadConfig_timeValid (A B : Syms) : (s.loadConfig A B).timeValid = s.timeValid := by
  simp (disch := decide) only [State.timeValid, loadConfig_status, bit_setBit_ne]

@[simp] theorem clearConfig_codeField : (s.clearConfig).codeField = s.codeField := by
  simp (disch := decide) only [State.codeField, clearConfig_status, extract_setBit]
@[simp] theorem clearConfig_codeName : (s.clearConfig).code? = s.code? := by
  simp (disch := decide) only [State.code?, State.codeField, clearConfig_status, extract_setBit]
@[simp] theorem clearConfig_cfgValid : (s.clearConfig).cfgValid = false := by
  simp (disch := decide) only [State.cfgValid, clearConfig_status, bit_setBit_self]
@[simp] theorem clearConfig_errDetected : (s.clearConfig).errDetected = s.errDetected := by
  simp (disch := decide) only [State.errDetected, clearConfig_status, bit_setBit_ne]
@[simp] theorem clearConfig_timeValid : (s.clearConfig).timeValid = s.timeValid := by
  simp (disch := decide) only [State.timeValid, clearConfig_status, bit_setBit_ne]

@[simp] theorem runDivider_codeField (D G : Bits) : (s.runDivider D G).codeField = s.codeField := rfl
@[simp] theorem runDivider_codeName (D G : Bits) : (s.runDivider D G).code? = s.code? := rfl
@[simp] theorem runDivider_cfgValid (D G : Bits) : (s.runDivider D G).cfgValid = s.cfgValid := rfl
@[simp] theorem runDivider_errDetected (D G : Bits) : (s.runDivider D G).errDetected = s.errDetected := rfl
@[simp] theorem runDivider_timeValid (D G : Bits) : (s.runDivider D G).timeValid = s.timeValid := rfl

@[simp] theorem complete_codeField (c : Code) (e : Bool) (r : Option DWord) (o : Syms) : (s.complete c e r o).codeField = c.toBits := by
  simp only [State.codeField, complete_status, extract_setLow4]
@[simp] theorem complete_codeName (c : Code) (e : Bool) (r : Option DWord) (o : Syms) : (s.complete c e r o).code? = some c := by
  simp only [State.code?, State.codeField, complete_status, extract_setLow4, ofBits_toBits]
@[simp] theorem complete_cfgValid (c : Code) (e : Bool) (r : Option DWord) (o : Syms) : (s.complete c e r o).cfgValid = s.cfgValid := by
  simp (disch := decide) only [State.cfgValid, complete_status, bit_setLow4, bit_setBit_ne]
@[simp] theorem complete_errDetected (c : Code) (e : Bool) (r : Option DWord) (o : Syms) : (s.complete c e r o).errDetected = e := by
  simp (disch := decide) only [State.errDetected, complete_status, bit_setLow4, bit_setBit_self]
@[simp] theorem complete_timeValid (c : Code) (e : Bool) (r : Option DWord) (o : Syms) : (s.complete c e r o).timeValid = r.isSome := by
  simp (disch := decide) only [State.timeValid, complete_status, bit_setLow4, bit_setBit_ne, bit_setBit_self]

@[simp] theorem raise_codeField (c : Code) : (s.raise c).codeField = c.toBits := by
  simp only [State.codeField, raise_status, extract_setLow4]
@[simp] theorem raise_codeName (c : Code) : (s.raise c).code? = some c := by
  simp only [State.code?, State.codeField, raise_status, extract_setLow4, ofBits_toBits]
@[simp] theorem raise_cfgValid (c : Code) : (s.raise c).cfgValid = s.cfgValid := by
  simp (disch := decide) only [State.cfgValid, raise_status, bit_setLow4, bit_setBit_ne]
@[simp] theorem raise_errDetected (c : Code) : (s.raise c).errDetected = false := by
  simp (disch := decide) only [State.errDetected, raise_status, bit_setLow4, bit_setBit_self]
@[simp] theorem raise_timeValid (c : Code) : (s.raise c).timeValid = false := by
  simp (disch := decide) only [State.timeValid, raise_status, bit_setLow4, bit_setBit_ne, bit_setBit_self]

@[simp] theorem applyReset_codeField : (s.applyReset).codeField = Code.ok.toBits := rfl
@[simp] theorem applyReset_codeName : (s.applyReset).code? = some .ok := rfl
@[simp] theorem applyReset_cfgValid : (s.applyReset).cfgValid = false := by
  simp [State.cfgValid]
@[simp] theorem applyReset_errDetected : (s.applyReset).errDetected = false := by
  simp [State.errDetected]
@[simp] theorem applyReset_timeValid : (s.applyReset).timeValid = false := by
  simp [State.timeValid]

@[simp] theorem noteRead_codeField (x : Reg) : (s.noteRead x).codeField = s.codeField := rfl
@[simp] theorem noteRead_codeName (x : Reg) : (s.noteRead x).code? = s.code? := rfl
@[simp] theorem noteRead_cfgValid (x : Reg) : (s.noteRead x).cfgValid = s.cfgValid := rfl
@[simp] theorem noteRead_errDetected (x : Reg) : (s.noteRead x).errDetected = s.errDetected := rfl
@[simp] theorem noteRead_timeValid (x : Reg) : (s.noteRead x).timeValid = s.timeValid := rfl

/-- Completing a command leaves the reserved bits of STATUS (10_state.md R27). -/
theorem complete_reserved (c : Code) (e : Bool) (r : Option DWord) (o : Syms) :
    (s.complete c e r o).status &&& reservedMask = s.status &&& reservedMask := by
  rw [complete_status, setLow4_reserved, setBit_reserved _ _ _ (by simp), setBit_reserved _ _ _ (by simp)]

theorem raise_reserved (c : Code) : (s.raise c).status &&& reservedMask = s.status &&& reservedMask :=
  complete_reserved s c false none []

theorem loadConfig_reserved (A B : Syms) : (s.loadConfig A B).status &&& reservedMask = s.status &&& reservedMask :=
  setBit_reserved _ _ _ (by simp)

theorem clearConfig_reserved : s.clearConfig.status &&& reservedMask = s.status &&& reservedMask :=
  setBit_reserved _ _ _ (by simp)

end

end Machine
end Sys2Proof
end

