-- ==== Sys2Proof/Laws/Exec.lean ====
section
/-! SUPPORT. Each command's meaning, case by case: the equations that run it, and the lemmas that say once everything it
can do. The proofs over commands cite these instead of unfolding a meaning. -/

namespace Sys2Proof
namespace Machine

variable {s t : State}

/-! ### Running a command -/

theorem execConfig_ok (h : (validGen s.inA && validIV s.inB s.inA) = true) :
    execConfig s = .next ((s.loadConfig s.inA s.inB).complete .ok false none []) := by
  unfold execConfig
  rw [if_pos h]

theorem execConfig_bad (h : (validGen s.inA && validIV s.inB s.inA) = false) :
    execConfig s = .next (s.clearConfig.raise .invalidGeneratorConfig) := by
  unfold execConfig
  rw [if_neg (by simp [h])]

theorem execDivide_notConfigured (h : s.cfgValid = false) : execDivide s = .next (s.raise .notConfigured) := by
  unfold execDivide
  rw [if_pos h]

theorem execDivide_invalid (h : s.cfgValid = true) (hv : validSyms s.inA = false) :
    execDivide s = .next (s.raise .invalidBitString) := by
  unfold execDivide
  rw [if_neg (by simp [h]), bits_eq_none.2 hv]

theorem execDivide_broken {D : Bits} (h : s.cfgValid = true) (hD : s.inA = syms D) (hG : s.generator? = none) :
    execDivide s = .fault .configurationBroken := by
  unfold execDivide
  rw [if_neg (by simp [h]), hD, bits_syms, hG]

theorem execDivide_short {D G : Bits} (h : s.cfgValid = true) (hD : s.inA = syms D) (hG : s.generator? = some G)
    (hl : D.length < G.length) : execDivide s = .next (s.raise .dividendTooShort) := by
  unfold execDivide
  rw [if_neg (by simp [h]), hD, bits_syms, hG]
  exact if_pos hl

theorem execDivide_ok {D G : Bits} (h : s.cfgValid = true) (hD : s.inA = syms D) (hG : s.generator? = some G)
    (hl : G.length ≤ D.length) :
    execDivide s = .next ((s.runDivider D G).complete .ok false none (syms (s.div.run D G).remainder)) := by
  unfold execDivide
  rw [if_neg (by simp [h]), hD, bits_syms, hG]
  exact if_neg (Nat.not_lt.2 hl)

theorem execEncode_notConfigured (b : Bool) (h : s.cfgValid = false) :
    execEncode b s = .next (s.raise .notConfigured) := by
  unfold execEncode
  rw [if_pos h]

theorem execEncode_invalid (b : Bool) (h : s.cfgValid = true) (hv : validSyms s.inA = false) :
    execEncode b s = .next (s.raise .invalidBitString) := by
  unfold execEncode
  rw [if_neg (by simp [h]), bits_eq_none.2 hv]

theorem execEncode_broken {d : Bits} (b : Bool) (h : s.cfgValid = true) (hd : s.inA = syms d)
    (hc : s.generator? = none ∨ s.initialValue? = none) : execEncode b s = .fault .configurationBroken := by
  unfold execEncode
  rw [if_neg (by simp [h]), hd, bits_syms]
  rcases hc with hc | hc
  · rw [hc]
  · rw [hc]
    cases s.generator? <;> rfl

theorem execEncode_ok {d G V : Bits} (b : Bool) (h : s.cfgValid = true) (hd : s.inA = syms d)
    (hG : s.generator? = some G) (hV : s.initialValue? = some V) :
    execEncode b s = .next ((s.runDivider (extendedDividend V d G.length) G).complete .ok false (s.timingReport b)
      (syms (d ++ (s.div.run (extendedDividend V d G.length) G).remainder))) := by
  unfold execEncode
  rw [if_neg (by simp [h]), hd, bits_syms, hG, hV]
  rfl

theorem execDecode_notConfigured (b : Bool) (h : s.cfgValid = false) :
    execDecode b s = .next (s.raise .notConfigured) := by
  unfold execDecode
  rw [if_pos h]

theorem execDecode_invalid (b : Bool) (h : s.cfgValid = true) (hv : validSyms s.inA = false) :
    execDecode b s = .next (s.raise .invalidBitString) := by
  unfold execDecode
  rw [if_neg (by simp [h]), bits_eq_none.2 hv]

theorem execDecode_broken {c : Bits} (b : Bool) (h : s.cfgValid = true) (hc : s.inA = syms c)
    (hG : s.generator? = none) : execDecode b s = .fault .configurationBroken := by
  unfold execDecode
  rw [if_neg (by simp [h]), hc, bits_syms, hG]

theorem execDecode_short {c G : Bits} (b : Bool) (h : s.cfgValid = true) (hc : s.inA = syms c)
    (hG : s.generator? = some G) (hl : c.length < G.length) :
    execDecode b s = .next (s.raise .dividendTooShort) := by
  unfold execDecode
  rw [if_neg (by simp [h]), hc, bits_syms, hG]
  exact if_pos hl

theorem execDecode_ok {c G : Bits} (b : Bool) (h : s.cfgValid = true) (hc : s.inA = syms c)
    (hG : s.generator? = some G) (hl : G.length ≤ c.length) :
    execDecode b s = .next ((s.runDivider c G).complete .ok (syndromeNonZero (s.div.run c G).remainder)
      (s.timingReport b) (syms c)) := by
  unfold execDecode
  rw [if_neg (by simp [h]), hc, bits_syms, hG]
  exact if_neg (Nat.not_lt.2 hl)

/-! ### What a command can do -/

/-- IN_A either holds a bit string or an invalid symbol. -/
theorem inA_cases (s : State) : validSyms s.inA = false ∨ ∃ d, s.inA = syms d := by
  cases h : validSyms s.inA
  · exact .inl rfl
  · exact .inr (validSyms_iff.1 h)

/-- Everything CONFIG can do. -/
theorem execConfig_cases (s : State) :
    (validGen s.inA = true ∧ validIV s.inB s.inA = true ∧
      execConfig s = .next ((s.loadConfig s.inA s.inB).complete .ok false none [])) ∨
    ((validGen s.inA && validIV s.inB s.inA) = false ∧
      execConfig s = .next (s.clearConfig.raise .invalidGeneratorConfig)) := by
  cases h : (validGen s.inA && validIV s.inB s.inA)
  · exact .inr ⟨rfl, execConfig_bad h⟩
  · have h' := h
    rw [Bool.and_eq_true] at h'
    exact .inl ⟨h'.1, h'.2, execConfig_ok h⟩

/-- Everything DIVIDE can do. -/
theorem execDivide_cases (s : State) :
    (s.cfgValid = false ∧ execDivide s = .next (s.raise .notConfigured)) ∨
    (s.cfgValid = true ∧ validSyms s.inA = false ∧ execDivide s = .next (s.raise .invalidBitString)) ∨
    (s.cfgValid = true ∧ s.generator? = none ∧ execDivide s = .fault .configurationBroken) ∨
    (∃ D G, s.cfgValid = true ∧ s.inA = syms D ∧ s.generator? = some G ∧ D.length < G.length ∧
      execDivide s = .next (s.raise .dividendTooShort)) ∨
    (∃ D G, s.cfgValid = true ∧ s.inA = syms D ∧ s.generator? = some G ∧ G.length ≤ D.length ∧
      execDivide s = .next ((s.runDivider D G).complete .ok false none (syms (s.div.run D G).remainder))) := by
  cases h : s.cfgValid
  · exact .inl ⟨rfl, execDivide_notConfigured h⟩
  · rcases inA_cases s with hv | ⟨D, hD⟩
    · exact .inr (.inl ⟨rfl, hv, execDivide_invalid h hv⟩)
    · cases hG : s.generator? with
      | none => exact .inr (.inr (.inl ⟨rfl, rfl, execDivide_broken h hD hG⟩))
      | some G =>
        rcases Nat.lt_or_ge D.length G.length with hl | hl
        · exact .inr (.inr (.inr (.inl ⟨D, G, rfl, hD, rfl, hl, execDivide_short h hD hG hl⟩)))
        · exact .inr (.inr (.inr (.inr ⟨D, G, rfl, hD, rfl, hl, execDivide_ok h hD hG hl⟩)))

/-- Everything ENCODE can do. -/
theorem execEncode_cases (b : Bool) (s : State) :
    (s.cfgValid = false ∧ execEncode b s = .next (s.raise .notConfigured)) ∨
    (s.cfgValid = true ∧ validSyms s.inA = false ∧ execEncode b s = .next (s.raise .invalidBitString)) ∨
    (s.cfgValid = true ∧ (s.generator? = none ∨ s.initialValue? = none) ∧
      execEncode b s = .fault .configurationBroken) ∨
    (∃ d G V, s.cfgValid = true ∧ s.inA = syms d ∧ s.generator? = some G ∧ s.initialValue? = some V ∧
      execEncode b s = .next ((s.runDivider (extendedDividend V d G.length) G).complete .ok false (s.timingReport b)
        (syms (d ++ (s.div.run (extendedDividend V d G.length) G).remainder)))) := by
  cases h : s.cfgValid
  · exact .inl ⟨rfl, execEncode_notConfigured b h⟩
  · rcases inA_cases s with hv | ⟨d, hd⟩
    · exact .inr (.inl ⟨rfl, hv, execEncode_invalid b h hv⟩)
    · cases hG : s.generator? with
      | none => exact .inr (.inr (.inl ⟨rfl, .inl rfl, execEncode_broken b h hd (.inl hG)⟩))
      | some G =>
        cases hV : s.initialValue? with
        | none => exact .inr (.inr (.inl ⟨rfl, .inr rfl, execEncode_broken b h hd (.inr hV)⟩))
        | some V => exact .inr (.inr (.inr ⟨d, G, V, rfl, hd, rfl, rfl, execEncode_ok b h hd hG hV⟩))

/-- Everything DECODE can do. -/
theorem execDecode_cases (b : Bool) (s : State) :
    (s.cfgValid = false ∧ execDecode b s = .next (s.raise .notConfigured)) ∨
    (s.cfgValid = true ∧ validSyms s.inA = false ∧ execDecode b s = .next (s.raise .invalidBitString)) ∨
    (s.cfgValid = true ∧ s.generator? = none ∧ execDecode b s = .fault .configurationBroken) ∨
    (∃ c G, s.cfgValid = true ∧ s.inA = syms c ∧ s.generator? = some G ∧ c.length < G.length ∧
      execDecode b s = .next (s.raise .dividendTooShort)) ∨
    (∃ c G, s.cfgValid = true ∧ s.inA = syms c ∧ s.generator? = some G ∧ G.length ≤ c.length ∧
      execDecode b s = .next ((s.runDivider c G).complete .ok (syndromeNonZero (s.div.run c G).remainder)
        (s.timingReport b) (syms c))) := by
  cases h : s.cfgValid
  · exact .inl ⟨rfl, execDecode_notConfigured b h⟩
  · rcases inA_cases s with hv | ⟨c, hc⟩
    · exact .inr (.inl ⟨rfl, hv, execDecode_invalid b h hv⟩)
    · cases hG : s.generator? with
      | none => exact .inr (.inr (.inl ⟨rfl, rfl, execDecode_broken b h hc hG⟩))
      | some G =>
        rcases Nat.lt_or_ge c.length G.length with hl | hl
        · exact .inr (.inr (.inr (.inl ⟨c, G, rfl, hc, rfl, hl, execDecode_short b h hc hG hl⟩)))
        · exact .inr (.inr (.inr (.inr ⟨c, G, rfl, hc, rfl, hl, execDecode_ok b h hc hG hl⟩)))

/-- A command that goes on ends in ONE completion: of the state itself, of the state with the divider run, or of the state
with the configuration loaded or cleared. -/
theorem exec_is_completion {i : Instr} (h : exec i s = .next t) :
    ∃ s₀ c e r o, t = s₀.complete c e r o ∧
      (s₀ = s ∨ (∃ D G, s₀ = s.runDivider D G) ∨ (∃ A B, s₀ = s.loadConfig A B) ∨ s₀ = s.clearConfig) := by
  cases i with
  | config =>
    rcases execConfig_cases s with ⟨_, _, e⟩ | ⟨_, e⟩ <;> cases e.symm.trans h
    · exact ⟨_, _, _, _, _, rfl, .inr (.inr (.inl ⟨_, _, rfl⟩))⟩
    · exact ⟨_, _, _, _, _, rfl, .inr (.inr (.inr rfl))⟩
  | encode b =>
    rcases execEncode_cases b s with ⟨_, e⟩ | ⟨_, _, e⟩ | ⟨_, _, e⟩ | ⟨_, _, _, _, _, _, _, e⟩ <;>
      cases e.symm.trans h
    · exact ⟨_, _, _, _, _, rfl, .inl rfl⟩
    · exact ⟨_, _, _, _, _, rfl, .inl rfl⟩
    · exact ⟨_, _, _, _, _, rfl, .inr (.inl ⟨_, _, rfl⟩)⟩
  | decode b =>
    rcases execDecode_cases b s with ⟨_, e⟩ | ⟨_, _, e⟩ | ⟨_, _, e⟩ | ⟨_, _, _, _, _, _, e⟩ |
        ⟨_, _, _, _, _, _, e⟩ <;> cases e.symm.trans h
    · exact ⟨_, _, _, _, _, rfl, .inl rfl⟩
    · exact ⟨_, _, _, _, _, rfl, .inl rfl⟩
    · exact ⟨_, _, _, _, _, rfl, .inl rfl⟩
    · exact ⟨_, _, _, _, _, rfl, .inr (.inl ⟨_, _, rfl⟩)⟩
  | divide =>
    rcases execDivide_cases s with ⟨_, e⟩ | ⟨_, _, e⟩ | ⟨_, _, e⟩ | ⟨_, _, _, _, _, _, e⟩ |
        ⟨_, _, _, _, _, _, e⟩ <;> cases e.symm.trans h
    · exact ⟨_, _, _, _, _, rfl, .inl rfl⟩
    · exact ⟨_, _, _, _, _, rfl, .inl rfl⟩
    · exact ⟨_, _, _, _, _, rfl, .inl rfl⟩
    · exact ⟨_, _, _, _, _, rfl, .inr (.inl ⟨_, _, rfl⟩)⟩
  | cfgCrc6 =>
    cases h
    exact ⟨_, _, _, _, _, rfl, .inr (.inr (.inl ⟨_, _, rfl⟩))⟩
  | cfgCrc16 =>
    cases h
    exact ⟨_, _, _, _, _, rfl, .inr (.inr (.inl ⟨_, _, rfl⟩))⟩

end Machine
end Sys2Proof
end

