-- ==== Sys2Proof/Laws/Port.lean ====
section
/-! SUPPORT. Laws of the host port and of one step. -/

namespace Sys2Proof
namespace Machine

variable {s : State}

@[simp] theorem ofNumber_number (r : Reg) : Reg.ofNumber? r.number = some r := by cases r <;> rfl

/-- The numbers of the eight registers are 0 to 7 (10_state.md R20). -/
theorem ofNumber_eq_some {n : Nat} {r : Reg} : Reg.ofNumber? n = some r ↔ n = r.number := by
  constructor
  · intro h
    unfold Reg.ofNumber? at h
    split at h <;> cases h <;> rfl
  · rintro rfl
    exact ofNumber_number r

theorem ofNumber_eq_none {n : Nat} : Reg.ofNumber? n = none ↔ 8 ≤ n := by
  unfold Reg.ofNumber?
  split <;> simp_all
  omega

/-- A step with nothing pending. -/
theorem step_idle (h : s.inputs = []) : step s = .next s := by
  unfold step State.takeInput
  rw [h]
  rfl

/-- A step with an access pending. -/
theorem step_input {a : Input} {rest : List Input} (h : s.inputs = a :: rest) :
    step s = runPort (State.access { s with inputs := rest } a) := by
  unfold step State.takeInput
  rw [h]

@[simp] theorem runPort_done (o : Host.Outcome State Fault Refusal) : runPort (.done o) = o := rfl

@[simp] theorem runPort_command (w : Word) (s : State) : runPort (.command w s) = runCommand w s := rfl

theorem runCommand_cmd {w : Word} {i : Instr} (s : State) (h : decodeCmd w = .cmd i) : runCommand w s = exec i s := by
  unfold runCommand
  rw [h]

theorem runCommand_illegal {w : Word} {why : Illegal} (s : State) (h : decodeCmd w = .illegal why) :
    runCommand w s = .next (s.raise .illegalCommand) := by
  unfold runCommand
  rw [h]
  rfl

/-- Everything a write of a value of the register's width comes to. -/
theorem hostWriteReg_cases (r : Reg) (v : RegValue) (hv : r.takes v = true) :
    (∃ w, r = .command ∧ v = .word w ∧ s.hostWriteReg r v = .command w s) ∨
    (∃ S, r = .inA ∧ v = .syms S ∧ s.hostWriteReg r v =
      if withinMaxLen s.maxLen S.length then .done (.next { s with inA := S })
      else .done (.refused (.tooManySymbols .inA))) ∨
    (∃ S, r = .inB ∧ v = .syms S ∧ s.hostWriteReg r v =
      if withinMaxLen s.maxLen S.length then .done (.next { s with inB := S })
      else .done (.refused (.tooManySymbols .inB))) ∨
    ((r = .status ∨ r = .out ∨ r = .gen ∨ r = .iv ∨ r = .time) ∧ s.hostWriteReg r v = .done (.next s)) := by
  cases r <;> cases v <;> cases hv
  · exact .inl ⟨_, rfl, rfl, rfl⟩
  · exact .inr (.inr (.inr ⟨.inl rfl, rfl⟩))
  · exact .inr (.inl ⟨_, rfl, rfl, rfl⟩)
  · exact .inr (.inr (.inl ⟨_, rfl, rfl, rfl⟩))
  · exact .inr (.inr (.inr ⟨.inr (.inl rfl), rfl⟩))
  · exact .inr (.inr (.inr ⟨.inr (.inr (.inl rfl)), rfl⟩))
  · exact .inr (.inr (.inr ⟨.inr (.inr (.inr (.inl rfl))), rfl⟩))
  · exact .inr (.inr (.inr ⟨.inr (.inr (.inr (.inr rfl))), rfl⟩))

/-- A write of a value of the register's width. -/
theorem hostWrite_takes {r : Reg} {v : RegValue} (h : r.takes v = true) :
    s.hostWrite r.number v = s.hostWriteReg r v := by
  unfold State.hostWrite
  rw [ofNumber_number]
  exact if_pos h

/-- A write of a value of another width. -/
theorem hostWrite_takes_not {r : Reg} {v : RegValue} (h : r.takes v = false) :
    s.hostWrite r.number v = .done (.refused (.noSuchAccess r)) := by
  unfold State.hostWrite
  rw [ofNumber_number]
  exact if_neg (by simp [h])

/-- A write of a register that does not exist. -/
theorem hostWrite_none {n : Nat} {v : RegValue} (h : 8 ≤ n) :
    s.hostWrite n v = .done (.refused (.noSuchRegister n)) := by
  unfold State.hostWrite
  rw [ofNumber_eq_none.2 h]

end Machine
end Sys2Proof
end

