-- ==== Sys2Proof/Laws/Config.lean ====
section
/-! SUPPORT. What a loaded configuration means for the meanings: `G` and `IVb` are defined (00_scope.md R11), and the
commands that need them run. -/

namespace Sys2Proof
namespace Machine

variable {s : State} {G V : Bits}

theorem IsGenerator.validGen (h : IsGenerator G) : validGen (syms G) = true := by
  simp [h.1, h.2]

theorem isGenerator_of_validGen (h : validGen (syms G) = true) : IsGenerator G := by
  simpa [IsGenerator] using h

theorem State.HasGenerator.generator (h : s.HasGenerator G) : s.generator? = some G :=
  generator_eq_some.2 ⟨h.gen, h.isGenerator.validGen⟩

theorem State.HasConfig.initialValue (h : s.HasConfig G V) : s.initialValue? = some V := by
  rw [initialValue_eq_some]
  refine ⟨h.iv, ?_⟩
  rw [h.gen, validIV_syms]
  simp [h.ivLength]

theorem hasGenerator_of_generator (h : s.cfgValid = true) (hG : s.generator? = some G) : s.HasGenerator G :=
  have hg := generator_eq_some.1 hG
  ⟨h, hg.1, isGenerator_of_validGen hg.2⟩

theorem hasConfig_of_values (h : s.cfgValid = true) (hG : s.generator? = some G) (hV : s.initialValue? = some V) :
    s.HasConfig G V := by
  have hg := hasGenerator_of_generator h hG
  have hv := initialValue_eq_some.1 hV
  refine ⟨hg, hv.1, ?_⟩
  have := hv.2
  rw [hg.gen, validIV_syms] at this
  simpa using this

/-- The configuration invariant, as bit strings (10_state.md R38). -/
theorem State.ConfigOk.cases (h : s.ConfigOk) :
    (s.cfgValid = false ∧ s.gen = [] ∧ s.iv = []) ∨ ∃ G V, s.HasConfig G V := by
  rcases h with ⟨h1, h2, h3⟩ | h'
  · obtain ⟨G, hG⟩ := validSyms_iff.1 (validSyms_of_validGen h2)
    obtain ⟨V, hV⟩ := validSyms_iff.1 (validSyms_of_validIV h3)
    rw [hG] at h2
    rw [hG, hV, validIV_syms] at h3
    exact .inr ⟨G, V, ⟨⟨h1, hG, isGenerator_of_validGen h2⟩, hV, by simpa using h3⟩⟩
  · exact .inl h'

/-- The invariant says nothing of the accesses still to come. -/
theorem State.Inv.withInputs (h : s.Inv) (l : List Input) : State.Inv { s with inputs := l } :=
  ⟨h.reserved, h.code, h.config, h.time, h.flags, h.outSyms, ⟨h.capacity.inA, h.capacity.inB, h.capacity.gen,
    h.capacity.iv, h.capacity.out⟩⟩

/-- ENCODE on a bit string, with a configuration loaded. -/
theorem exec_encode_of_config {d : Bits} (b : Bool) (h : s.HasConfig G V) (hd : s.inA = syms d) :
    exec (.encode b) s = .next ((s.runDivider (extendedDividend V d G.length) G).complete .ok false (s.timingReport b)
      (syms (d ++ (s.div.run (extendedDividend V d G.length) G).remainder))) :=
  execEncode_ok b h.cfgValid hd h.generator h.initialValue

/-- DECODE on a bit string at least as long as the generator, with a generator loaded. -/
theorem exec_decode_of_generator {c : Bits} (b : Bool) (h : s.HasGenerator G) (hc : s.inA = syms c)
    (hl : G.length ≤ c.length) :
    exec (.decode b) s = .next ((s.runDivider c G).complete .ok (syndromeNonZero (s.div.run c G).remainder)
      (s.timingReport b) (syms c)) :=
  execDecode_ok b h.cfgValid hc h.generator hl

/-- DIVIDE on a bit string at least as long as the generator, with a generator loaded. -/
theorem exec_divide_of_generator {D : Bits} (h : s.HasGenerator G) (hD : s.inA = syms D) (hl : G.length ≤ D.length) :
    exec .divide s = .next ((s.runDivider D G).complete .ok false none (syms (s.div.run D G).remainder)) :=
  execDivide_ok h.cfgValid hD h.generator hl

/-- The error flag is 0 exactly for an all-zero remainder (41_codec.md R131). -/
theorem syndromeNonZero_eq (rem : Bits) : syndromeNonZero rem = !isZero rem := by
  induction rem with
  | nil => rfl
  | cons b rem ih =>
    have h1 : syndromeNonZero (b :: rem) = (b || syndromeNonZero rem) := rfl
    have h2 : isZero (b :: rem) = (!b && isZero rem) := rfl
    rw [h1, h2, ih]
    cases b <;> rfl

end Machine
end Sys2Proof
end

