-- ==== Sys2Proof/Laws/PerInstr.lean ====
section
/-! SUPPORT. A law per constructor of Instr. -/

namespace Sys2Proof
namespace Laws
namespace LegalFields

/-- The fields of the instruction's word are the instruction's fields, and they are legal: RSVD is zero, OP is of the
table, T stands only where it may (30_encoding.md R70 to R73). -/
def Statement (i : Instr) : Prop := unpack (encode i) = i.fields ∧ i.wf = true

theorem config : Statement .config := by
  unfold Statement
  decide

theorem encode (t : Bool) : Statement (.encode t) := by
  unfold Statement
  revert t
  decide

theorem decode (t : Bool) : Statement (.decode t) := by
  unfold Statement
  revert t
  decide

theorem divide : Statement .divide := by
  unfold Statement
  decide

theorem cfgCrc6 : Statement .cfgCrc6 := by
  unfold Statement
  decide

theorem cfgCrc16 : Statement .cfgCrc16 := by
  unfold Statement
  decide

end LegalFields
end Laws
end Sys2Proof
end

