-- ==== Sys2Proof/Machine/ScriptText.lean ====
section
/-! DEFINITION. Host scripts as text: "one host action per line. A `;` begins a comment" (30_encoding.md R80). Where the
spec's table leaves a detail of spelling open, log 14 says what is read. -/

namespace Sys2Proof
namespace Machine

/-- The text before a `;` that stands outside quotation marks. -/
def withoutComment (quoted : Bool) : List Char → List Char
  | [] => []
  | c :: cs =>
    if c = ';' ∧ quoted = false then []
    else c :: withoutComment (if c = '"' then !quoted else quoted) cs

/-- Spaces and tabs. -/
def isBlank (c : Char) : Bool := c = ' ' || c = '\t' || c = '\r'

/-- Text without blanks at either end. -/
def trimBlanks (cs : List Char) : List Char :=
  ((cs.dropWhile isBlank).reverse.dropWhile isBlank).reverse

/-- The text before the first blank, and the rest. -/
def firstWord (cs : List Char) : List Char × List Char :=
  (cs.takeWhile (fun c => !isBlank c), trimBlanks (cs.dropWhile (fun c => !isBlank c)))

/-- The text before the first `,`, and the text after it. -/
def atComma? (cs : List Char) : Option (List Char × List Char) :=
  match cs.dropWhile (· != ',') with
  | _ :: rest => some (trimBlanks (cs.takeWhile (· != ',')), trimBlanks rest)
  | [] => none

/-- A quoted text and what follows it. -/
def quotedThen? : List Char → Option (List Char × List Char)
  | '"' :: cs =>
    match cs.dropWhile (· != '"') with
    | _ :: rest => some (cs.takeWhile (· != '"'), trimBlanks rest)
    | [] => none
  | _ => none

/-- A quoted text and nothing else. -/
def quoted? (cs : List Char) : Option String :=
  match quotedThen? cs with
  | some (q, []) => some (String.ofList q)
  | _ => none

/-- A hexadecimal digit. -/
def hexDigit? (c : Char) : Option Nat :=
  if '0' ≤ c ∧ c ≤ '9' then some (c.toNat - '0'.toNat)
  else if 'a' ≤ c ∧ c ≤ 'f' then some (c.toNat - 'a'.toNat + 10)
  else if 'A' ≤ c ∧ c ≤ 'F' then some (c.toNat - 'A'.toNat + 10)
  else none

/-- Hexadecimal digits, most significant first, after a value already read. -/
def hexDigits? (v : Nat) : List Char → Option Nat
  | [] => some v
  | c :: cs =>
    match hexDigit? c with
    | some x => hexDigits? (16 * v + x) cs
    | none => none

/-- A number in hexadecimal, with or without `0x`. -/
def hexNumber? : List Char → Option Nat
  | '0' :: 'x' :: c :: cs => hexDigits? 0 (c :: cs)
  | c :: cs => hexDigits? 0 (c :: cs)
  | [] => none

/-- The bytes between the commas of a text. -/
def byteList? (current : List Char) : List Char → Option Syms
  | [] =>
    match hexNumber? (trimBlanks current.reverse) with
    | some v => if v < 256 then some [BitVec.ofNat 8 v] else none
    | none => none
  | c :: cs =>
    if c = ',' then
      match hexNumber? (trimBlanks current.reverse), byteList? [] cs with
      | some v, some S => if v < 256 then some (BitVec.ofNat 8 v :: S) else none
      | _, _ => none
    else byteList? (c :: current) cs

/-- `bytes(b0, b1, ...)`; `bytes()` is the empty sequence. -/
def bytesArgument? (cs : List Char) : Option Syms :=
  match cs.reverse with
  | ')' :: inside => if trimBlanks inside = [] then some [] else byteList? [] inside.reverse
  | _ => none

/-- What a `WR` line writes. -/
def source? (cs : List Char) : Option WrSource :=
  if cs = "OUT".toList then some .out
  else if "bytes(".toList.isPrefixOf cs then (bytesArgument? (cs.drop 6)).map .bytes
  else (quoted? cs).map .chars

/-- `<mnemonic>`, `<mnemonic>.T` or `0x<hex>`, the argument of `CMD`. -/
def command? (cs : List Char) : Option ScriptLine :=
  if "0x".toList.isPrefixOf cs then
    match hexNumber? cs with
    | some v => if v < 2 ^ 32 then some (.cmdWord (BitVec.ofNat 32 v)) else none
    | none => none
  else
    match (cs.map Char.toUpper).reverse with
    | 'T' :: '.' :: m => some (.cmd (String.ofList m.reverse) true)
    | m => some (.cmd (String.ofList m.reverse) false)

/-- The arguments of `CFG`. -/
def cfgLine? (cs : List Char) : Option ScriptLine :=
  match quotedThen? cs with
  | some (gen, ',' :: rest) => (quoted? (trimBlanks rest)).map fun iv => .cfg (String.ofList gen) iv
  | _ => none

/-- A line whose first word, in capitals, is `word`, with argument `arg`. -/
def lineOf? (word arg : List Char) : Option ScriptLine :=
  if word = "WR".toList then
    match atComma? arg with
    | some (r, src) => (source? src).map fun x => .wr (String.ofList r) x
    | none => none
  else if word = "CMD".toList then command? arg
  else if word = "RD".toList then some (.rd (String.ofList arg))
  else if word = "CFG".toList then cfgLine? arg
  else if word = "ENC".toList then (quoted? arg).map (.enc false)
  else if word = "ENC.T".toList then (quoted? arg).map (.enc true)
  else if word = "DEC".toList then (quoted? arg).map (.dec false)
  else if word = "DEC.T".toList then (quoted? arg).map (.dec true)
  else if word = "DIV".toList then (quoted? arg).map .div
  else none

/-- The inputs a line of text stands for; a line that holds only a comment or nothing stands for none. -/
def textLineInputs? (line : String) : Option (List Input) :=
  let cs := trimBlanks (withoutComment false line.toList)
  if cs = [] then some []
  else
    let (word, arg) := firstWord cs
    match lineOf? (word.map Char.toUpper) arg with
    | some l => l.inputs?
    | none => none

/-- The inputs of a host program, line by line; none where it is ill-formed (10_state.md R35). -/
def programInputs? : List String → Option (List Input)
  | [] => some []
  | l :: ls =>
    match textLineInputs? l, programInputs? ls with
    | some a, some b => some (a ++ b)
    | _, _ => none

end Machine
end Sys2Proof
end

