-- ==== Sys2Proof/Tests/Slice0.lean ====
section
/-! SUPPORT. The model's own tests. Expected values come from 95_test_vectors.md or the spec's tables; the section is named
at each test. The theorems witness_<Name> show states and operands that meet the hypotheses of Obligations.<Name>. -/

namespace Sys2Proof
namespace Tests

open Sys2Proof.Machine

/-! ### Helpers -/

/-- A bit string from its digits. -/
def bs (l : List Nat) : Bits := l.map (· == 1)

/-- The symbols of a bit string given by its digits. -/
def sy (l : List Nat) : Syms := syms (bs l)

/-- The state after, or the one before where there is none. -/
def after (o : Host.Outcome State Fault Refusal) (s : State) : State :=
  match o with
  | .next t => t
  | _ => s

/-- A field of the state after one command. -/
def on {α : Type} (i : Instr) (s : State) (f : State → α) : α := f (after (exec i s) s)

/-- A state with the given configuration loaded and IN_A, after an OK command. -/
def loaded (G V a : Bits) : State :=
  { State.reset with status := 0x100, gen := syms G, iv := syms V, inA := syms a }

/-- The same with the CRC-6-ITU preset. -/
def crc6 (a : Bits) : State := loaded crc6Gen crc6IV a

/-- The same with the CRC-16-CCITT preset. -/
def crc16 (a : Bits) : State := loaded crc16Gen crc16IV a

/-! ### Well-formedness: one ill-formed term for each check -/

theorem test_wf_refuses_reserved_bits : CmdFields.wf ⟨2, false, 1⟩ = false := by decide

theorem test_wf_refuses_reserved_op : CmdFields.wf ⟨0, false, 0⟩ = false ∧ CmdFields.wf ⟨7, false, 0⟩ = false := by decide

theorem test_wf_refuses_timing : CmdFields.wf ⟨4, true, 0⟩ = false := by decide

theorem test_wf_accepts : CmdFields.wf ⟨3, true, 0⟩ = true := by decide

/-- An access to register 8, one of another width, one longer than MAXLEN. -/
theorem test_access_ill_formed :
    Input.wellFormed .unbounded (.read 8) = false ∧
    Input.wellFormed .unbounded (.write 7 (.word 0)) = false ∧
    Input.wellFormed (.atLeast17 0) (.write 2 (.syms (syms (zeros 18)))) = false ∧
    Input.wellFormed (.atLeast17 0) (.write 2 (.syms (syms (zeros 17)))) = true := by decide

/-! ### Decoding: the words of 30_encoding.md R71, R74, written out bit by bit -/

theorem test_decode_config : decodeCmd 0b00000000000000000000000000000001 = .cmd .config := by decide
theorem test_decode_encode : decodeCmd 0b00000000000000000000000000000010 = .cmd (.encode false) := by decide
theorem test_decode_encode_t : decodeCmd 0b00000000000000000000000000010010 = .cmd (.encode true) := by decide
theorem test_decode_decode : decodeCmd 0b00000000000000000000000000000011 = .cmd (.decode false) := by decide
theorem test_decode_decode_t : decodeCmd 0b00000000000000000000000000010011 = .cmd (.decode true) := by decide
theorem test_decode_divide : decodeCmd 0b00000000000000000000000000000100 = .cmd .divide := by decide
theorem test_decode_cfg_crc6 : decodeCmd 0b00000000000000000000000000000101 = .cmd .cfgCrc6 := by decide
theorem test_decode_cfg_crc16 : decodeCmd 0b00000000000000000000000000000110 = .cmd .cfgCrc16 := by decide

/-- The illegal words of 95_test_vectors.md section 2.7. -/
theorem test_decode_illegal :
    ([0x00000000, 0x00000007, 0x0000000F, 0x00000010, 0x00000011, 0x00000014, 0x00000015, 0x00000016, 0x00000020,
      0x80000002, 0xFFFFFFFF] : List Word).all (fun w => (decodeCmd w).instr? == none) = true := by decide

theorem test_decodeTableWord :
    decodeTableWord 32 0x12 = some (.encode true) ∧ decodeTableWord 32 0x20 = none := by decide

/-! ### The divider: 95_test_vectors.md section 2.1 -/

theorem test_divide_v3 :
    divide (bs [1, 1, 1, 1, 1, 1, 1]) crc6Gen = bs [1, 1, 1, 1, 0, 0] := by decide

theorem test_divide_v14 :
    divide (bs [1, 1, 0, 1, 0, 1, 1, 0, 1, 1, 0, 0, 0, 0]) (bs [1, 0, 0, 1, 1]) = bs [1, 1, 1, 0] ∧
    quotient (bs [1, 1, 0, 1, 0, 1, 1, 0, 1, 1, 0, 0, 0, 0]) (bs [1, 0, 0, 1, 1]) =
      bs [1, 1, 0, 0, 0, 0, 1, 0, 1, 0] := by decide

theorem test_divide_v17 :
    divide (bs [0, 1, 0, 0, 0, 0, 0, 1, 1, 0, 0, 1, 0, 1, 0, 0, 0, 1, 1, 1, 1, 0, 0, 1]) crc16Gen =
      bs [1, 1, 0, 0, 1, 1, 0, 0, 1, 0, 0, 1, 1, 1, 0, 0] := by decide

theorem test_divide_v19 : divide (bs [0, 1, 1, 0, 0]) (bs [1, 0, 0]) = bs [0, 0] := by decide

/-- Row k = 6 of the trace in 95_test_vectors.md section 1.4. -/
theorem test_divider_trace_row6 :
    let D := bs [0, 0, 0, 0, 0, 0, 1, 0, 1, 0, 0, 0, 0, 0, 0]
    let e := Div.steps D crc6Gen 6 0 (Div.load D crc6Gen Div.atReset)
    e.r = bs [1, 0, 1, 0, 0, 0, 0] ∧ (e.step D crc6Gen 6).t = bs [0, 0, 1, 0, 0, 1, 1] ∧
      (e.step D crc6Gen 6).r = bs [0, 1, 0, 0, 1, 1, 0] := by decide

/-! ### Commands -/

/-- 95_test_vectors.md section 2.3: a generator whose last bit is 0 is legal. -/
theorem test_config_last_bit_zero :
    on .config { crc6 (bs [1, 0]) with inB := sy [1] } (fun t => (t.status, t.gen, t.iv)) =
      (0x00000100, sy [1, 0], sy [1]) := by decide

/-- 95_test_vectors.md section 2.3: `"0111"` fails, and the configuration is gone. -/
theorem test_config_rejected :
    on .config { crc6 (bs [0, 1, 1, 1]) with inB := sy [0, 0, 0] } (fun t => (t.status, t.gen, t.iv)) =
      (0x00000002, [], []) := by decide

/-- 95_test_vectors.md section 1.5. -/
theorem test_encode_crc16 :
    on (.encode false) (crc16 (bs [0, 1, 0, 0, 0, 0, 0, 1])) (fun t => (t.status, t.out)) =
      (0x00000100, sy [0, 1, 0, 0, 0, 0, 0, 1, 1, 0, 0, 1, 0, 1, 0, 0, 0, 1, 1, 1, 1, 0, 0, 1]) := by decide

/-- 95_test_vectors.md section 2.4: `"101"` under CRC-6-ITU, with T = 1. -/
theorem test_encode_timed :
    on (.encode true) (crc6 (bs [1, 0, 1])) (fun t => (t.status, t.out)) =
      (0x00000500, sy [1, 0, 1, 0, 0, 1, 1, 1, 1]) := by decide

/-- 95_test_vectors.md section 2.5: bit 0 flipped, with T = 1 as in program P1 step 7. -/
theorem test_decode_flipped :
    on (.decode true) (crc6 (bs [0, 0, 1, 0, 0, 1, 1, 1, 1])) (fun t => (t.status, t.out)) =
      (0x00000700, sy [0, 0, 1, 0, 0, 1, 1, 1, 1]) := by decide

/-- 95_test_vectors.md section 2.5: a clean codeword, and one of length g - 1. -/
theorem test_decode_clean_and_short :
    on (.decode false) (crc6 (bs [1, 0, 1, 0, 0, 1, 1, 1, 1])) (fun t => t.status) = 0x00000100 ∧
    on (.decode false) (crc6 (zeros 6)) (fun t => (t.status, t.out)) = (0x00000103, []) := by decide

/-- 95_test_vectors.md section 2.2. -/
theorem test_divide_command :
    on .divide (loaded (bs [1, 0, 0, 1, 1]) (zeros 4) (bs [1, 1, 0, 1, 0, 1, 1, 0, 1, 1, 0, 0, 0, 0]))
      (fun t => (t.status, t.out)) = (0x00000100, sy [1, 1, 1, 0]) := by decide

/-- 95_test_vectors.md section 2.2: `"1x"` is both invalid and short; and after reset there is no configuration. -/
theorem test_divide_priority :
    on .divide { crc6 [] with inA := [0x31, 0x78] } (fun t => (t.status, t.out)) = (0x00000101, []) ∧
    on .divide { State.reset with inA := sy [1, 0, 1, 1] } (fun t => t.status) = 0x00000004 := by decide

/-- 95_test_vectors.md section 2.6: a preset after a failed CONFIG; IN_A is kept. -/
theorem test_cfg_crc6 :
    on .cfgCrc6 { State.reset with status := 0x2, inA := [0x61, 0x62, 0x63] } (fun t => (t.status, t.gen, t.iv, t.inA)) =
      (0x00000100, sy [1, 0, 0, 0, 0, 1, 1], sy [0, 0, 0, 0, 0, 0], [0x61, 0x62, 0x63]) := by decide

/-- 95_test_vectors.md section 2.6. -/
theorem test_cfg_crc16 :
    on .cfgCrc16 State.reset (fun t => (t.status, t.gen, t.iv)) =
      (0x00000100, sy [1, 0, 0, 0, 1, 0, 0, 0, 0, 0, 0, 1, 0, 0, 0, 0, 1],
        sy [1, 1, 1, 1, 1, 1, 1, 1, 1, 1, 1, 1, 1, 1, 1, 1]) := by decide

/-! ### Steps and host accesses -/

/-- 95_test_vectors.md section 2.7: an illegal word with TIME_VALID = 1 and OUT non-empty beforehand. -/
theorem test_step_illegal :
    let s := { crc6 [] with status := 0x500, out := sy [1], time := 7 }
    let t := after (step (s.withFetchWord 32 0x80000002)) s
    (t.status, t.out, t.time, t.gen) = (0x00000105, [], 0, sy [1, 0, 0, 0, 0, 1, 1]) := by decide

/-- 95_test_vectors.md section 2.8: a write to STATUS changes nothing. -/
theorem test_step_status_write :
    (after (step { State.reset with inputs := [.write 1 (.word 0x12345678)] }) State.reset) = State.reset := by decide

/-- Program P1 step 4: `WR IN_A, OUT`. -/
theorem test_step_copy :
    (after (step { crc6 [] with out := sy [1, 0, 1], inputs := [.copy 2 4] }) State.reset).inA = sy [1, 0, 1] := by decide

/-- Register 8 is refused (10_state.md R35). -/
theorem test_step_register_8 :
    step { State.reset with inputs := [.read 8] } = .refused (.noSuchRegister 8) := rfl

/-- 30_encoding.md R80: `"10a"` is 0x31 0x30 0x61; names of no register and `.T` on DIVIDE are ill-formed; mnemonics are
case-insensitive. -/
theorem test_script_lines :
    (ScriptLine.wr "IN_A" (.chars "10a")).inputs? = some [.write 2 (.syms [0x31, 0x30, 0x61])] ∧
    (ScriptLine.rd "FOO").inputs? = none ∧ (ScriptLine.cmd "DIVIDE" true).inputs? = none ∧
    (ScriptLine.cmd "encode" true).inputs? = some [.write 0 (.word 0x12)] := by decide

/-- Lines of programs P1 and P3 of 95_test_vectors.md section 3, as text. -/
theorem test_program_text :
    programInputs? ["WR IN_A, OUT   ; copy", "CMD DECODE.T", "CMD 0x14", "CFG \"11\", \"0\"",
        "WR IN_B, bytes(30, 0x61)", "; nothing", "RD STATUS"] =
      some [.copy 2 4, .write 0 (.word 0x13), .write 0 (.word 0x14), .write 2 (.syms [0x31, 0x31]),
        .write 3 (.syms [0x30]), .write 0 (.word 1), .write 3 (.syms [0x30, 0x61]), .read 1] := by decide

/-- An unknown register and an unknown mnemonic make a program ill-formed. -/
theorem test_program_ill_formed :
    programInputs? ["RD REG8"] = none ∧ programInputs? ["CMD NOP"] = none ∧ programInputs? ["WR GEN, \"1\""] = none := by
  decide

/-- 95_test_vectors.md section 1.2: 0x41 is `"01000001"`. -/
theorem test_byte_bits : byteBits 0x41 = bs [0, 1, 0, 0, 0, 0, 0, 1] := by decide

/-! ### Witnesses -/

theorem gen6 : IsGenerator crc6Gen := ⟨by decide, by decide⟩

theorem gen16 : IsGenerator crc16Gen := ⟨by decide, by decide⟩

theorem loaded_hasConfig {G V : Bits} (a : Bits) (h : IsGenerator G) (hl : V.length = G.length - 1) :
    (loaded G V a).HasConfig G V :=
  ⟨⟨(by decide : BitVec.getLsbD (0x100 : Word) 8 = true), rfl, h⟩, rfl, hl⟩

theorem crc6_hasConfig (a : Bits) : (crc6 a).HasConfig crc6Gen crc6IV := loaded_hasConfig a gen6 rfl

theorem crc16_hasConfig (a : Bits) : (crc16 a).HasConfig crc16Gen crc16IV := loaded_hasConfig a gen16 rfl

/-- The codec state meets the invariant. -/
theorem crc6_inv : (crc6 []).Inv where
  reserved := by decide
  code := by decide
  config := .inl ⟨by decide, by decide, by decide⟩
  time := fun _ => rfl
  flags := fun h => absurd h (by decide)
  outSyms := rfl
  capacity := ⟨by decide, by decide, by decide, by decide, by decide⟩

theorem witness_DecodeEncodeInverse :
    (Instr.encode true).wf = true ∧ decodeCmd 0x12 = .cmd (.encode true) := by decide

theorem witness_StepRunsDecodedCommand :
    ∃ s s' s'' : State, (s.inputs = .write 0 (.word 4) :: [] ∧ decodeCmd 4 = .cmd .divide) ∧
      (s'.inputs = .copy 0 Reg.status.number :: [] ∧ s'.hostRead .status = .word 5 ∧ decodeCmd 5 = .cmd .cfgCrc6) ∧
      s''.inputs = [] :=
  ⟨{ State.reset with inputs := [.write 0 (.word 4)] }, { State.reset with status := 5, inputs := [.copy 0 1] },
    State.reset, by decide, by decide, rfl⟩

theorem witness_IllegalWordCompletes :
    ∃ (s : State) (a : Input) (rest : List Input) (w : Word), s.inputs = a :: rest ∧
      a.commandWord? { s with inputs := rest } = some w ∧ (decodeCmd w).instr? = none :=
  ⟨{ crc6 [] with inputs := [.copy 0 1] }, .copy 0 1, [], 0x100, rfl, by decide, by decide⟩

theorem witness_LeadingBitZeroAfterXor :
    IsGenerator crc6Gen ∧ (Div.load crc6Gen crc6Gen Div.atReset).r.length = crc6Gen.length := ⟨gen6, by decide⟩

/-- The last step of a division of one step, and the first of a division of two. -/
theorem witness_RefillStaysInsideDividend :
    IsGenerator crc6Gen ∧ crc6Gen.length ≤ crc6Gen.length ∧ 0 < stepCount crc6Gen crc6Gen ∧
      0 = stepCount crc6Gen crc6Gen - 1 ∧ crc6Gen.length ≤ (zeros 8).length ∧ 0 < stepCount (zeros 8) crc6Gen - 1 :=
  ⟨gen6, by decide⟩

theorem witness_DividerRegistersKeepLengths : IsGenerator crc6Gen ∧ crc6Gen.length ≤ (zeros 7).length := ⟨gen6, by decide⟩

theorem witness_ShiftOnEveryStepAgrees : IsGenerator crc6Gen ∧ crc6Gen.length ≤ (zeros 7).length := ⟨gen6, by decide⟩

/-- The literal reading of the source, which 90_conflicts.md C1 rejects, differs: 95_test_vectors.md section 1.4. -/
theorem test_literal_reading_differs :
    let D := bs [0, 0, 0, 0, 0, 0, 1, 0, 1, 0, 0, 0, 0, 0, 0]
    (shiftEveryStep D crc6Gen (stepCount D crc6Gen) 0 (Div.load D crc6Gen Div.atReset)).r.drop 1 =
      bs [0, 1, 1, 1, 1, 0] ∧ divide D crc6Gen = bs [0, 0, 1, 1, 1, 1] := by decide

theorem witness_DivisionIsPolynomialDivision : IsGenerator crc16Gen ∧ crc16Gen.length ≤ (ones 17).length :=
  ⟨gen16, by decide⟩

theorem witness_DivisionIsPure : IsGenerator crc16Gen ∧ crc16Gen.length ≤ (ones 17).length := ⟨gen16, by decide⟩

theorem witness_DivisionIsLinear :
    IsGenerator crc6Gen ∧ crc6Gen.length ≤ (ones 9).length ∧ (zeros 9).length = (ones 9).length := ⟨gen6, by decide⟩

theorem witness_DivisionCornerCases :
    IsGenerator crc6Gen ∧ (ones 7).length = crc6Gen.length ∧ crc6Gen.length ≤ 7 ∧ crc6Gen.length ≤ (ones 7).length ∧
      2 ≤ (bs [1, 0]).length ∧ 2 ≤ 2 ∧ 2 ≤ (bs [1, 1]).length := ⟨gen6, by decide⟩

theorem witness_DivideCompletes :
    (crc6 (ones 7)).HasGenerator crc6Gen ∧ (crc6 (ones 7)).inA = syms (ones 7) ∧ crc6Gen.length ≤ (ones 7).length :=
  ⟨(crc6_hasConfig _).toHasGenerator, rfl, by decide⟩

theorem witness_ConfigLoads :
    let s := { State.reset with inA := sy [1, 1], inB := sy [0] }
    s.inA = syms (bs [1, 1]) ∧ s.inB = syms (bs [0]) ∧ IsGenerator (bs [1, 1]) ∧
      (bs [0]).length = (bs [1, 1]).length - 1 :=
  ⟨rfl, rfl, ⟨by decide, by decide⟩, by decide⟩

/-- IN_A = `"1"`, IN_B empty: the length is below 2 (41_codec.md R123). -/
theorem witness_ConfigRejects :
    let s := { State.reset with inA := sy [1] }
    ¬ ∃ G V : Bits, s.inA = syms G ∧ s.inB = syms V ∧ IsGenerator G ∧ V.length = G.length - 1 := by
  rintro s ⟨G, V, h, _, hg, _⟩
  have hl : G.length = 1 := by
    have := congrArg List.length h
    rw [length_syms] at this
    exact this.symm
  have := hg.1
  omega

theorem witness_FailedConfigLeavesNoCodec :
    (∃ t, exec .config State.reset = .next t ∧ t.code? = some .invalidGeneratorConfig) ∧
    State.reset.cfgValid = false ∧
    ∃ s t : State, s.cfgValid = false ∧ step s = .next t ∧ t.cfgValid = true := by
  refine ⟨⟨_, execConfig_bad (by decide), by simp⟩, by decide, ?_⟩
  exact ⟨State.reset.withFetchWord 32 5, _, by decide, rfl, by decide⟩

theorem witness_EncodeCompletes : (crc16 []).HasConfig crc16Gen crc16IV ∧ (crc16 []).inA = syms [] :=
  ⟨crc16_hasConfig [], rfl⟩

theorem witness_ExtendedDividendIsLongEnough :
    (IsGenerator crc6Gen ∧ crc6IV.length = crc6Gen.length - 1) ∧ ∃ t, exec (.encode false) (crc6 []) = .next t :=
  ⟨⟨gen6, rfl⟩, _, exec_encode_of_config false (crc6_hasConfig []) rfl⟩

theorem witness_EncodeIsSystematic :
    ∃ t, exec (.encode true) (crc6 (ones 3)) = .next t ∧ t.code? = some .ok :=
  ⟨_, exec_encode_of_config true (crc6_hasConfig _) rfl, by simp⟩

/-- An encoding of the given state, with the codeword it leaves in OUT. -/
theorem encode_witness {s : State} {G V d : Bits} (b : Bool) (h : s.HasConfig G V) (hd : s.inA = syms d) :
    ∃ t rem, exec (.encode b) s = .next t ∧ t.out = syms (d ++ rem) :=
  ⟨_, _, exec_encode_of_config b h hd, complete_out _ _ _ _ _⟩

theorem witness_EncodeRemainderClosedForm :
    (crc16 (ones 8)).HasConfig crc16Gen crc16IV ∧ (crc6 (ones 8)).HasConfig crc6Gen crc6IV ∧ isZero crc6IV = true ∧
    (∃ t rem, exec (.encode false) (crc16 (ones 8)) = .next t ∧ t.out = syms (ones 8 ++ rem)) ∧
    ∃ t rem, exec (.encode false) (crc6 (ones 8)) = .next t ∧ t.out = syms (ones 8 ++ rem) :=
  ⟨crc16_hasConfig _, crc6_hasConfig _, by decide, encode_witness false (crc16_hasConfig _) rfl,
    encode_witness false (crc6_hasConfig _) rfl⟩

theorem witness_DecodeCompletes :
    (crc6 (ones 7)).HasGenerator crc6Gen ∧ (crc6 (ones 7)).inA = syms (ones 7) ∧ crc6Gen.length ≤ (ones 7).length :=
  ⟨(crc6_hasConfig _).toHasGenerator, rfl, by decide⟩

/-- A DECODE that completes with OK. -/
theorem decode_witness (b : Bool) :
    ∃ t, exec (.decode b) (crc6 (ones 7)) = .next t ∧ t.code? = some .ok :=
  ⟨_, exec_decode_of_generator b (crc6_hasConfig _).toHasGenerator rfl (by decide), by simp⟩

theorem witness_DecodeNeverReadsIV :
    (crc6 (ones 7)).HasGenerator crc6Gen ∧ (crc6 (ones 7)).inA = syms (ones 7) ∧
      ∃ t, exec (.decode true) (crc6 (ones 7)) = .next t ∧ t.code? = some .ok :=
  ⟨(crc6_hasConfig _).toHasGenerator, rfl, decode_witness true⟩

theorem witness_ErrorFlagIsNonZeroRemainder :
    (crc6 (ones 7)).HasGenerator crc6Gen ∧ (crc6 (ones 7)).inA = syms (ones 7) ∧
      ∃ t, exec (.decode false) (crc6 (ones 7)) = .next t ∧ t.code? = some .ok :=
  ⟨(crc6_hasConfig _).toHasGenerator, rfl, decode_witness false⟩

/-- Encoding three bits under CRC-6-ITU, then decoding the codeword. -/
theorem roundtrip_witness :
    ∃ t u, exec (.encode false) (crc6 (bs [1, 0, 1])) = .next t ∧
      exec (.decode false) { t with inA := t.out } = .next u ∧ u.code? = some .ok := by
  refine ⟨_, _, exec_encode_of_config false (crc6_hasConfig _) rfl,
    exec_decode_of_generator (G := crc6Gen) (c := bs [1, 0, 1, 0, 0, 1, 1, 1, 1]) false ⟨by decide, by decide, gen6⟩
      (by decide) (by decide), ?_⟩
  simp

theorem witness_DecodeReturnsCodeword :
    (∃ t, exec (.decode false) (crc6 (ones 7)) = .next t ∧ t.code? = some .ok) ∧
    (crc6 (bs [1, 0, 1])).HasConfig crc6Gen crc6IV ∧ (crc6 (bs [1, 0, 1])).inA = syms (bs [1, 0, 1]) ∧
    ∃ t u, exec (.encode false) (crc6 (bs [1, 0, 1])) = .next t ∧
      exec (.decode false) { t with inA := t.out } = .next u ∧ u.code? = some .ok :=
  ⟨decode_witness false, crc6_hasConfig _, rfl, roundtrip_witness⟩

theorem witness_ErrorsInPriorityOrder :
    (decodeCmd 0x14).instr? = none ∧ State.reset.cfgValid = false ∧
    (∃ s : State, s.cfgValid = true ∧ validSyms s.inA = false) ∧
    ((crc6 (zeros 6)).HasGenerator crc6Gen ∧ (crc6 (zeros 6)).inA = syms (zeros 6) ∧
      (zeros 6).length < crc6Gen.length) :=
  ⟨by decide, by decide, ⟨{ crc6 [] with inA := [0x31, 0x78] }, by decide, by decide⟩,
    ⟨(crc6_hasConfig _).toHasGenerator, rfl, by decide⟩⟩

theorem witness_RoundTripSyndrome :
    (crc6 (bs [1])).HasConfig crc6Gen crc6IV ∧ (crc6 (bs [1])).inA = syms (bs [1]) ∧ 1 ≤ (bs [1]).length ∧
      ∃ t c, exec (.encode false) (crc6 (bs [1])) = .next t ∧ t.out = syms (bs [1] ++ c) :=
  ⟨crc6_hasConfig _, rfl, by decide, encode_witness false (crc6_hasConfig _) rfl⟩

theorem witness_CleanRoundTripZeroIV :
    (crc6 (bs [1])).HasConfig crc6Gen crc6IV ∧ (crc6 (bs [1])).inA = syms (bs [1]) ∧ 1 ≤ (bs [1]).length ∧
      isZero crc6IV = true := ⟨crc6_hasConfig _, rfl, by decide, by decide⟩

theorem witness_NonZeroIVReportedIfGeneratorEndsInOne :
    (crc16 (bs [1])).HasConfig crc16Gen crc16IV ∧ (crc16 (bs [1])).inA = syms (bs [1]) ∧ 1 ≤ (bs [1]).length ∧
      isZero crc16IV = false ∧ bitAt crc16Gen (crc16Gen.length - 1) = true :=
  ⟨crc16_hasConfig _, rfl, by decide, by decide, by decide⟩

theorem witness_DivideOverIVAndCodewordIsZero :
    (crc16 (bs [1])).HasConfig crc16Gen crc16IV ∧ (crc16 (bs [1])).inA = syms (bs [1]) ∧
      ∃ t, exec (.encode false) (crc16 (bs [1])) = .next t :=
  ⟨crc16_hasConfig _, rfl, _, exec_encode_of_config false (crc16_hasConfig _) rfl⟩

theorem witness_EmptyDatawordDecodesTooShort :
    (crc6 []).HasConfig crc6Gen crc6IV ∧ (crc6 []).inA = [] ∧ ∃ t, exec (.encode false) (crc6 []) = .next t :=
  ⟨crc6_hasConfig _, rfl, _, exec_encode_of_config false (crc6_hasConfig []) rfl⟩

theorem witness_SingleBitSyndrome :
    (crc16 (bs [1])).HasConfig crc16Gen crc16IV ∧ (crc16 (bs [1])).inA = syms (bs [1]) ∧ 1 ≤ (bs [1]).length ∧
      ∃ t c, exec (.encode false) (crc16 (bs [1])) = .next t ∧ t.out = syms (bs [1] ++ c) ∧ 0 < (bs [1] ++ c).length := by
  obtain ⟨t, c, h, hc⟩ := encode_witness (d := bs [1]) false (crc16_hasConfig (bs [1])) rfl
  exact ⟨crc16_hasConfig _, rfl, by decide, t, c, h, hc, by simp [bs]⟩

theorem witness_SingleBitErrorsDetected :
    (crc6 (bs [1])).HasConfig crc6Gen crc6IV ∧ (crc6 (bs [1])).inA = syms (bs [1]) ∧ 1 ≤ (bs [1]).length ∧
      isZero crc6IV = true ∧ bitAt crc6Gen (crc6Gen.length - 1) = true :=
  ⟨crc6_hasConfig _, rfl, by decide, by decide, by decide⟩

/-- Generator `"100"`, initial value `"01"`, dataword `"1"` (95_test_vectors.md section 2.4): the codeword is `"100"`. -/
theorem witness_PowerGeneratorMissesDataErrors :
    let s := loaded (true :: zeros 2) (bs [0, 1]) (bs [1])
    s.HasConfig (true :: zeros (3 - 1)) (bs [0, 1]) ∧ s.inA = syms (bs [1]) ∧ 0 < (bs [1, 0, 0]).length - (3 - 1) ∧
      ∃ t, exec (.encode false) s = .next t ∧ t.out = syms (bs [1, 0, 0]) := by
  have h : (loaded (true :: zeros 2) (bs [0, 1]) (bs [1])).HasConfig (true :: zeros 2) (bs [0, 1]) :=
    loaded_hasConfig _ ⟨by decide, by decide⟩ rfl
  exact ⟨h, rfl, by decide, _, exec_encode_of_config false h rfl, by decide⟩

/-- Both clauses, the pattern at the end and over the whole codeword of `"1"`. -/
theorem witness_GeneratorPatternKeepsRemainder :
    (IsGenerator crc6Gen ∧ 2 + crc6Gen.length + 0 = (ones 9).length) ∧
    (crc6 (bs [1])).HasConfig crc6Gen crc6IV ∧ isZero crc6IV = true ∧ (crc6 (bs [1])).inA = syms (bs [1]) ∧
      ∃ t c, exec (.encode false) (crc6 (bs [1])) = .next t ∧ t.out = syms c ∧ 0 + crc6Gen.length + 0 = c.length :=
  ⟨⟨gen6, by decide⟩, crc6_hasConfig _, by decide, rfl, _, bs [1, 0, 0, 0, 0, 1, 1],
    exec_encode_of_config false (crc6_hasConfig _) rfl, by decide, by decide⟩

/-- A step that runs a timed DECODE to OK. -/
theorem command_step_witness :
    ∃ (s t : State) (a : Input) (rest : List Input) (w : Word), s.inputs = a :: rest ∧
      a.commandWord? { s with inputs := rest } = some w ∧ step s = .next t ∧ decodeCmd w = .cmd (.decode true) ∧
      t.code? = some .ok ∧ s.inA = syms (ones 7) ∧ s.gen = syms crc6Gen := by
  obtain ⟨t, h, hc⟩ := decode_witness true
  exact ⟨(crc6 (ones 7)).withFetchWord 32 0x13, t, _, _, 0x13, rfl, by decide, h, by decide, hc, rfl, rfl⟩

/-- A step that runs an illegal word. -/
theorem illegal_step_witness :
    ∃ (s t : State) (a : Input) (rest : List Input) (w : Word), s.inputs = a :: rest ∧
      a.commandWord? { s with inputs := rest } = some w ∧ step s = .next t ∧
      ¬ ((∃ b, decodeCmd w = .cmd (.decode b)) ∧ t.code? = some .ok) ∧ t.timeValid = false := by
  refine ⟨State.reset.withFetchWord 32 0x20, _, _, _, 0x20, rfl, by decide, rfl, ?_, by decide⟩
  rintro ⟨-, h⟩
  exact absurd h (by decide)

theorem witness_ErrDetectedOnlyFromDecode :
    (∃ (s t : State) (a : Input) (rest : List Input) (w : Word), s.inputs = a :: rest ∧
      a.commandWord? { s with inputs := rest } = some w ∧ step s = .next t ∧ decodeCmd w = .cmd (.decode true) ∧
      t.code? = some .ok ∧ s.inA = syms (ones 7) ∧ s.gen = syms crc6Gen) ∧
    ∃ (s t : State) (a : Input) (rest : List Input) (w : Word), s.inputs = a :: rest ∧
      a.commandWord? { s with inputs := rest } = some w ∧ step s = .next t ∧
      ¬ ((∃ b, decodeCmd w = .cmd (.decode b)) ∧ t.code? = some .ok) ∧ t.timeValid = false :=
  ⟨command_step_witness, illegal_step_witness⟩

theorem witness_TimeValidIffTimedOk :
    (∃ (s t : State) (a : Input) (rest : List Input) (w : Word), s.inputs = a :: rest ∧
      a.commandWord? { s with inputs := rest } = some w ∧ step s = .next t ∧ decodeCmd w = .cmd (.decode true) ∧
      t.code? = some .ok ∧ s.inA = syms (ones 7) ∧ s.gen = syms crc6Gen) ∧
    (∃ (s t : State) (a : Input) (rest : List Input) (w : Word), s.inputs = a :: rest ∧
      a.commandWord? { s with inputs := rest } = some w ∧ step s = .next t ∧
      ¬ ((∃ b, decodeCmd w = .cmd (.decode b)) ∧ t.code? = some .ok) ∧ t.timeValid = false) ∧
    ∃ (s t : State) (a : Input) (rest : List Input), s.inputs = a :: rest ∧
      a.commandWord? { s with inputs := rest } = none ∧ a ≠ .reset ∧ step s = .next t :=
  ⟨command_step_witness, illegal_step_witness,
    { crc6 [] with inputs := [.read 1] }, _, _, _, rfl, by decide, by decide, rfl⟩

theorem witness_TimingReportHasNoEffect :
    (∃ t, exec (.encode true) (crc6 (ones 3)) = .next t) ∧ ∃ t, exec (.decode true) (crc6 (ones 7)) = .next t :=
  ⟨⟨_, exec_encode_of_config true (crc6_hasConfig _) rfl⟩, (decode_witness true).imp fun _ h => h.1⟩

/-- Two states that agree on the inputs and differ elsewhere. -/
theorem witness_ResultsDependOnlyOnInputs :
    let s := crc6 (ones 7)
    let s' := { s with inB := sy [1], out := sy [0], time := 9, draws := 5, status := 0x703 }
    s'.gen = s.gen ∧ s'.iv = s.iv ∧ s'.cfgValid = s.cfgValid ∧ s'.inA = s.inA ∧ s' ≠ s ∧
      ∃ t, exec (.decode false) s = .next t :=
  ⟨rfl, rfl, by decide, rfl, by decide, (decode_witness false).imp fun _ h => h.1⟩

theorem witness_SameCommandAgainGivesSame : ∃ t, exec (.decode true) (crc6 (ones 7)) = .next t :=
  (decode_witness true).imp fun _ h => h.1

/-- A word written by the host, and one (STATUS, an illegal word) copied into COMMAND. -/
theorem witness_EveryCommandCompletesOnce :
    (∃ (s t : State) (w : Word), s.inputs = .write 0 (.word w) :: [] ∧ s.Inv ∧
      Input.commandWord? { s with inputs := [] } (.write 0 (.word w)) = some w ∧ step s = .next t) ∧
    ∃ (s t : State) (w : Word), s.inputs = .copy 0 Reg.status.number :: [] ∧ s.Inv ∧
      Input.commandWord? { s with inputs := [] } (.copy 0 Reg.status.number) = some w ∧ step s = .next t :=
  ⟨⟨{ crc6 [] with inputs := [.write 0 (.word 5)] }, _, 5, rfl, crc6_inv.withInputs _, rfl, rfl⟩,
    { crc6 [] with inputs := [.copy 0 1] }, _, 0x100, rfl, crc6_inv.withInputs _, rfl, rfl⟩

theorem witness_CodecCommandsFrame : ∃ t, exec (.decode true) (crc6 (ones 7)) = .next t :=
  (decode_witness true).imp fun _ h => h.1

theorem witness_ConfigCommandsFrame : ∃ t, exec .config State.reset = .next t := ⟨_, execConfig_bad (by decide)⟩

theorem witness_ConfigurationIsImmutable :
    ∃ (s t : State) (a : Input) (rest : List Input), s.inputs = a :: rest ∧ step s = .next t ∧ a ≠ .reset ∧
      ∀ w, a.commandWord? { s with inputs := rest } = some w → w ≠ 1 ∧ w ≠ 5 ∧ w ≠ 6 := by
  refine ⟨State.reset.withFetchWord 32 0x20, _, _, _, rfl, rfl, by decide, ?_⟩
  intro w h
  cases h
  decide

theorem witness_ReadOnlyWritesIgnored :
    Reg.time.takes (.dword 3) = true ∧
      ({ State.reset with inputs := [.write 7 (.dword 3)] } : State).inputs = .write Reg.time.number (.dword 3) :: [] := by
  decide

/-- Each kind of access that AccessSideEffects speaks of, at the edges of its ranges: registers 1, 4 and 7, and a write of
exactly 17 symbols against a MAXLEN of 17. -/
theorem witness_AccessSideEffects :
    (∃ s : State, s.inputs = .write 0 (.word 0xFFFFFFFF) :: []) ∧
    (∃ s : State, withinMaxLen s.maxLen (syms (zeros 17)).length = true ∧ s.maxLen = .atLeast17 0 ∧
      s.inputs = .write 2 (.syms (syms (zeros 17))) :: []) ∧
    (∃ s : State, withinMaxLen s.maxLen (syms (zeros 17)).length = true ∧ s.maxLen = .atLeast17 0 ∧
      s.inputs = .write 3 (.syms (syms (zeros 17))) :: []) ∧
    (∃ s t : State, s.inputs = .write 1 (.word 1) :: [] ∧ step s = .next t) ∧
    (∃ s t : State, s.inputs = .write 4 (.syms []) :: [] ∧ step s = .next t) ∧
    (∃ s t : State, s.inputs = .write 7 (.dword 1) :: [] ∧ step s = .next t) ∧
    ∃ s : State, s.inputs = .read Reg.out.number :: .read Reg.out.number :: [] :=
  ⟨⟨{ State.reset with inputs := [.write 0 (.word 0xFFFFFFFF)] }, rfl⟩,
    ⟨{ State.resetOf (.atLeast17 0) with inputs := [.write 2 (.syms (syms (zeros 17)))] }, by decide, rfl, rfl⟩,
    ⟨{ State.resetOf (.atLeast17 0) with inputs := [.write 3 (.syms (syms (zeros 17)))] }, by decide, rfl, rfl⟩,
    ⟨{ State.reset with inputs := [.write 1 (.word 1)] }, _, rfl, rfl⟩,
    ⟨{ State.reset with inputs := [.write 4 (.syms [])] }, _, rfl, rfl⟩,
    ⟨{ State.reset with inputs := [.write 7 (.dword 1)] }, _, rfl, rfl⟩,
    { State.reset with inputs := [.read 4, .read 4] }, rfl⟩

/-- Register 8 in each kind of access, and 18 symbols against a MAXLEN of 17. -/
theorem witness_OutsideAccessesRefused :
    (8 ≤ 8 ∧ (∃ s : State, s.inputs = .write 8 (.word 0) :: []) ∧ ∃ s : State, s.inputs = .read 8 :: []) ∧
    (∃ s : State, s.inputs = .copy 2 8 :: []) ∧ (∃ s : State, 8 ≤ 8 ∧ 7 ≤ 7 ∧ s.inputs = .copy 8 7 :: []) ∧
    (∃ s : State, s.maxLen = .atLeast17 0 ∧ 17 + 0 < (syms (zeros 18)).length ∧
      s.inputs = .write 2 (.syms (syms (zeros 18))) :: []) ∧
    ∃ s : State, s.maxLen = .atLeast17 0 ∧ 17 + 0 < (syms (zeros 18)).length ∧
      s.inputs = .write 3 (.syms (syms (zeros 18))) :: [] :=
  ⟨⟨by decide, ⟨{ State.reset with inputs := [.write 8 (.word 0)] }, rfl⟩, { State.reset with inputs := [.read 8] }, rfl⟩,
    ⟨{ State.reset with inputs := [.copy 2 8] }, rfl⟩, ⟨{ State.reset with inputs := [.copy 8 7] }, by decide, by decide, rfl⟩,
    ⟨{ State.resetOf (.atLeast17 0) with inputs := [.write 2 (.syms (syms (zeros 18)))] }, rfl, by decide, rfl⟩,
    { State.resetOf (.atLeast17 0) with inputs := [.write 3 (.syms (syms (zeros 18)))] }, rfl, by decide, rfl⟩

theorem witness_CopyOutIntoOperand :
    ∃ s : State, s.inputs = .copy 2 4 :: [] ∧ withinMaxLen s.maxLen s.out.length = true :=
  ⟨{ crc6 [] with out := sy [1, 0, 1], inputs := [.copy 2 4] }, rfl, by decide⟩

theorem witness_ResetValues : ∃ s : State, s.inputs = .reset :: [] ∧ s.cfgValid = true :=
  ⟨{ crc6 [] with inputs := [.reset] }, rfl, by decide⟩

theorem witness_StepKeepsInvariant : ∃ s t : State, s.Inv ∧ step s = .next t := ⟨crc6 [], _, crc6_inv, rfl⟩

theorem witness_ReachableConfigurationValid : ∃ s : State, Reachable s ∧ s.cfgValid = true :=
  ⟨_, .step (.start .unbounded [.write 0 (.word 5)]) rfl, by decide⟩

theorem witness_StatusReadsAsItsFields : ∃ s : State, Reachable s ∧ s.status = 0x100 :=
  ⟨_, .step (.start .unbounded [.write 0 (.word 5)]) rfl, by decide⟩

theorem witness_AdmittedAccessesGoOn :
    (∃ s : State, s.Inv ∧ s.inputs ≠ [] ∧ ∀ a rest, s.inputs = a :: rest → a.admitted s = true) ∧
      ∃ s : State, s.Inv ∧ s.inputs = .write 0 (.word 0x20) :: [] := by
  refine ⟨⟨{ crc6 [] with inputs := [.copy 2 4] }, crc6_inv.withInputs _, by decide, ?_⟩,
    { crc6 [] with inputs := [.write 0 (.word 0x20)] }, crc6_inv.withInputs _, rfl⟩
  intro a rest h
  cases h
  decide

theorem witness_WellFormedScriptsRunToTheEnd :
    ∃ s : State, s.Inv ∧ s.inputs ≠ [] ∧ ∀ a ∈ s.inputs, a.wellFormed s.maxLen = true :=
  ⟨{ crc6 [] with inputs := [.write 2 (.syms (sy [1, 0, 1])), .write 0 (.word 2), .copy 2 4, .read 1] },
    crc6_inv.withInputs _, by decide, by decide⟩

end Tests
end Sys2Proof
end

section
/-! SUPPORT. Command words: a word that decodes is its instruction's word, and an instruction's word decodes to it
(30_encoding.md R70 to R74). -/

namespace Sys2Proof
namespace Machine

theorem op_eq_of_toNat {op : BitVec 4} {n : Nat} (h : op.toNat = n) : op = BitVec.ofNat 4 n := by
  rw [← h, BitVec.ofNat_toNat, BitVec.setWidth_eq]

/-- A legal word of a command that takes no timing report has that command's fields. -/
theorem fields_of_untimed {op : BitVec 4} {t : Bool} {n : Nat} {i j : Instr} (hn : op.toNat = n)
    (hi : i.fields = ⟨BitVec.ofNat 4 n, false, 0⟩) (h : untimed ⟨op, t, 0⟩ i = .cmd j) :
    (⟨op, t, 0⟩ : CmdFields) = j.fields := by
  unfold untimed at h
  cases t <;> cases h
  rw [hi, op_eq_of_toNat hn]

/-- The fields of a legal word are those its instruction stands for (30_encoding.md R71, R72, R73). -/
theorem decodeFields_eq_cmd {f : CmdFields} {i : Instr} (h : decodeFields f = .cmd i) : f = i.fields := by
  obtain ⟨op, t, rsvd⟩ := f
  unfold decodeFields at h
  split at h
  · cases h
  · rename_i hr
    obtain rfl : rsvd = 0 := by simpa using hr
    split at h
    · exact fields_of_untimed ‹op.toNat = 1› rfl h
    · cases h
      rw [op_eq_of_toNat ‹op.toNat = 2›]
      rfl
    · cases h
      rw [op_eq_of_toNat ‹op.toNat = 3›]
      rfl
    · exact fields_of_untimed ‹op.toNat = 4› rfl h
    · exact fields_of_untimed ‹op.toNat = 5› rfl h
    · exact fields_of_untimed ‹op.toNat = 6› rfl h
    · cases h

/-- The fields of a word make up the whole word (30_encoding.md R70). -/
theorem pack_unpack (w : Word) : pack (unpack w) = w := by
  apply BitVec.eq_of_getLsbD_eq
  intro j hj
  simp only [pack, unpack, BitVec.getLsbD_append, BitVec.getLsbD_extractLsb']
  rcases Nat.lt_trichotomy j 4 with h | rfl | h
  · simp [h]
  · simp
  · have h1 : ¬ j < 4 := by omega
    have h2 : ¬ j - 4 < 1 := by omega
    have h3 : j - 4 - 1 < 27 := by omega
    have h4 : 5 + (j - 4 - 1) = j := by omega
    simp [h1, h2, h3, h4]

/-- A word that decodes is its instruction's word. -/
theorem encode_of_decodeCmd {w : Word} {i : Instr} (h : decodeCmd w = .cmd i) : encode i = w := by
  rw [encode, ← decodeFields_eq_cmd h, pack_unpack]

/-- Every instruction's word decodes to it. -/
theorem decodeCmd_encode (i : Instr) : decodeCmd (encode i) = .cmd i := by
  cases i with
  | encode t => cases t <;> decide
  | decode t => cases t <;> decide
  | config | divide | cfgCrc6 | cfgCrc16 => decide

end Machine
end Sys2Proof
end

section
/-! SUPPORT. STATUS as the word of its fields (10_state.md R22, R27). -/

namespace Sys2Proof
namespace Machine

theorem getLsbD_setWidth_ofBool_shiftLeft (b : Bool) (i j : Nat) (hi : i < 32) :
    ((BitVec.ofBool b).setWidth 32 <<< i).getLsbD j = (decide (j = i) && b) := by
  rw [BitVec.getLsbD_shiftLeft, BitVec.getLsbD_setWidth, BitVec.getLsbD_ofBool]
  by_cases h : j = i
  · simp [h, hi]
  · have : j < i ∨ j - i ≠ 0 := by omega
    rcases this with h' | h' <;> simp [h, h']

theorem getLsbD_statusWord (v e c : Bool) (code : BitVec 4) (j : Nat) :
    (statusWord v e c code).getLsbD j =
      (decide (j = 10) && v || decide (j = 9) && e || decide (j = 8) && c || code.getLsbD j) := by
  have hcode : (code.setWidth 32).getLsbD j = code.getLsbD j := by
    rw [BitVec.getLsbD_setWidth]
    by_cases hj : j < 32
    · simp [hj]
    · simp [BitVec.getLsbD_of_ge code j (by omega)]
  unfold statusWord
  simp only [BitVec.getLsbD_or, getLsbD_setWidth_ofBool_shiftLeft, Nat.reduceLT, hcode]

/-- Each reserved bit is 0 where the mask finds none set (10_state.md R27). -/
theorem getLsbD_of_reserved {w : Word} (h : w &&& reservedMask = 0) (j : Nat) (hj : j < 32)
    (hr : 4 ≤ j ∧ j ≠ 8 ∧ j ≠ 9 ∧ j ≠ 10) : w.getLsbD j = false := by
  have := congrArg (·.getLsbD j) h
  simpa [getLsbD_reservedMask j hj, hr] using this

/-- STATUS reads as its four fields in their places where its reserved bits are 0 (10_state.md R22). -/
theorem status_eq_statusWord {s : State} (h : s.status &&& reservedMask = 0) :
    s.status = statusWord s.timeValid s.errDetected s.cfgValid s.codeField := by
  apply BitVec.eq_of_getLsbD_eq
  intro j hj
  rw [getLsbD_statusWord]
  by_cases h4 : j < 4
  · have : j ≠ 10 ∧ j ≠ 9 ∧ j ≠ 8 := by omega
    simp [State.codeField, h4, this]
  · by_cases hf : j = 8 ∨ j = 9 ∨ j = 10
    · rcases hf with rfl | rfl | rfl <;> simp [State.cfgValid, State.errDetected, State.timeValid]
    · have hr : 4 ≤ j ∧ j ≠ 8 ∧ j ≠ 9 ∧ j ≠ 10 := by omega
      simp [getLsbD_of_reserved h j hj hr, hr]

end Machine
end Sys2Proof
end

section
/-! SUPPORT. The divider's registers over a run (40_divider.md R101 to R109). -/

namespace Sys2Proof
namespace Machine

/-- The result of a division does not depend on the hidden state before it: every register it reads is written first
(40_divider.md R101, R103, R109). -/
theorem run_eq_run (D G : Bits) (d e : Div) : d.run D G = e.run D G := rfl

section
variable (D G : Bits) (k m : Nat) (d : Div)

theorem steps_succ_last : Div.steps D G (m + 1) k d = (Div.steps D G m k d).step D G (k + m) :=
  steps_add D G k d m 1

/-- DIV.Q grows by one bit a step (40_divider.md R103). -/
theorem length_steps_q : (Div.steps D G m k d).q.length = d.q.length + m := by
  induction m with
  | zero => rfl
  | succ m ih => rw [steps_succ_last, step_q, List.length_append, ih, List.length_singleton, Nat.add_assoc]

/-- After a step DIV.T has the generator's length. -/
theorem length_steps_t (hg : 1 ≤ G.length) (h : d.r.length = G.length) :
    (Div.steps D G (m + 1) k d).t.length = G.length := by
  rw [steps_succ_last]
  exact length_step_t D G _ _ (length_steps D G k d hg m h)

/-- After a step DIV.K is that step's index. -/
theorem steps_k : (Div.steps D G (m + 1) k d).k = k + m := by
  rw [steps_succ_last, step_k]

/-- A whole division emits one quotient bit per step (40_divider.md R102, R107). -/
theorem length_quotient : (quotient D G).length = stepCount D G := by
  rw [quotient, Div.run, length_steps_q, load_q, List.length_nil, Nat.zero_add]

end

end Machine
end Sys2Proof
end

section
/-! SUPPORT. One step, said once: what an access notes in the history, which word it hands to the block, and what it
stores. -/

namespace Sys2Proof
namespace Machine

variable {s t : State}

/-! ### What an access notes -/

/-- What the host learns of an access itself: a read, and the read that a copy begins with, note the value (log 8, log 9). -/
def Input.notes (s : State) : Input → List Event
  | .read n => (Reg.ofNumber? n).toList.map fun r => .readBack r (s.hostRead r)
  | .copy _ n => (Reg.ofNumber? n).toList.map fun r => .readBack r (s.hostRead r)
  | _ => []

/-- The state with the access noted in the history; a command that the access issues starts from it. -/
def State.noted (s : State) (a : Input) : State := { s with history := a.notes s ++ s.history }

section
variable (s : State) (a : Input)

@[simp] theorem noted_status : (s.noted a).status = s.status := rfl
@[simp] theorem noted_inA : (s.noted a).inA = s.inA := rfl
@[simp] theorem noted_inB : (s.noted a).inB = s.inB := rfl
@[simp] theorem noted_out : (s.noted a).out = s.out := rfl
@[simp] theorem noted_gen : (s.noted a).gen = s.gen := rfl
@[simp] theorem noted_iv : (s.noted a).iv = s.iv := rfl
@[simp] theorem noted_time : (s.noted a).time = s.time := rfl
@[simp] theorem noted_maxLen : (s.noted a).maxLen = s.maxLen := rfl
@[simp] theorem noted_history : (s.noted a).history = a.notes s ++ s.history := rfl
@[simp] theorem noted_draws : (s.noted a).draws = s.draws := rfl
@[simp] theorem noted_cfgValid : (s.noted a).cfgValid = s.cfgValid := rfl
@[simp] theorem noted_timeValid : (s.noted a).timeValid = s.timeValid := rfl

@[simp] theorem notes_write (n : Nat) (v : RegValue) : (Input.write n v).notes s = [] := rfl
@[simp] theorem notes_copy (n : Nat) (r : Reg) : (Input.copy n r.number).notes s = [.readBack r (s.hostRead r)] := by
  simp [Input.notes]

theorem noted_write (n : Nat) (v : RegValue) : s.noted (.write n v) = s := rfl
theorem noted_read (r : Reg) : s.noted (.read r.number) = s.noteRead r := by
  simp [State.noted, Input.notes, State.noteRead]
theorem noted_copy (n : Nat) (r : Reg) : s.noted (.copy n r.number) = s.noteRead r := by
  simp [State.noted, State.noteRead]

end

/-! ### What an access comes to -/

/-- `t` is `s` with at most one operand register stored, within MAXLEN (10_state.md R28, R29, R35). -/
def State.Stored (s t : State) : Prop :=
  t = s ∨ ∃ S, withinMaxLen s.maxLen S.length = true ∧ (t = { s with inA := S } ∨ t = { s with inB := S })

theorem State.Stored.maxLen (h : s.Stored t) : t.maxLen = s.maxLen := by
  rcases h with rfl | ⟨S, _, rfl | rfl⟩ <;> rfl

theorem State.Stored.sameConfig (h : s.Stored t) : s.SameConfig t := by
  rcases h with rfl | ⟨S, _, rfl | rfl⟩ <;> exact ⟨rfl, rfl, rfl⟩

/-- A store writes no result register. -/
theorem State.Stored.results (h : s.Stored t) : t.status = s.status ∧ t.time = s.time ∧ t.out = s.out := by
  rcases h with rfl | ⟨S, _, rfl | rfl⟩ <;> exact ⟨rfl, rfl, rfl⟩

theorem access_write {r : Reg} {v : RegValue} (h : r.takes v = true) :
    s.access (.write r.number v) = s.hostWriteReg r v :=
  hostWrite_takes h

theorem hostWriteReg_readOnly {r : Reg} {v : RegValue}
    (hr : r = .status ∨ r = .out ∨ r = .gen ∨ r = .iv ∨ r = .time) : s.hostWriteReg r v = .done (.next s) := by
  rcases hr with rfl | rfl | rfl | rfl | rfl <;> rfl

theorem access_read (r : Reg) : s.access (.read r.number) = .done (.next (s.noteRead r)) := by
  simp [State.access]

theorem access_copy (n : Nat) (r : Reg) : s.access (.copy n r.number) = (s.noteRead r).hostWrite n (s.hostRead r) := by
  simp [State.access]

theorem access_read_none {n : Nat} (h : 8 ≤ n) : s.access (.read n) = .done (.refused (.noSuchRegister n)) := by
  simp [State.access, ofNumber_eq_none.2 h]

theorem access_copy_none {n m : Nat} (h : 8 ≤ m) : s.access (.copy n m) = .done (.refused (.noSuchRegister m)) := by
  simp [State.access, ofNumber_eq_none.2 h]

/-- A copy of an existing register writes a command word where a write of the value read does. -/
theorem commandWord_copy (n : Nat) (r : Reg) :
    (Input.copy n r.number).commandWord? s = (Input.write n (s.hostRead r)).commandWord? s := by
  cases n with
  | zero =>
    simp only [Input.commandWord?, ofNumber_number, Option.map_some]
    cases s.hostRead r <;> rfl
  | succ n => rfl

theorem commandWord_copy_none {n m : Nat} (h : 8 ≤ m) : (Input.copy n m).commandWord? s = none := by
  cases n with
  | zero => simp [Input.commandWord?, ofNumber_eq_none.2 h]
  | succ n => rfl

/-- A write reaches the decoder exactly where it puts a word into register 0 (10_state.md R21). -/
theorem commandWord_write {n : Nat} {v : RegValue} {w : Word} :
    (Input.write n v).commandWord? s = some w ↔ n = 0 ∧ v = .word w := by
  cases n <;> cases v <;> simp [Input.commandWord?]

/-- A number names one of the eight registers or none. -/
theorem number_cases (n : Nat) : 8 ≤ n ∨ ∃ r : Reg, n = r.number := by
  cases h : Reg.ofNumber? n with
  | none => exact .inl (ofNumber_eq_none.1 h)
  | some r => exact .inr ⟨r, ofNumber_eq_some.1 h⟩

theorem number_lt (r : Reg) : r.number < 8 := by
  cases r <;> decide

/-- Everything a write can come to: a command word for the block, a store, or a refusal. -/
theorem hostWrite_cases (s : State) (n : Nat) (v : RegValue) :
    (∃ w, (Input.write n v).commandWord? s = some w ∧ s.hostWrite n v = .command w s) ∨
    ((Input.write n v).commandWord? s = none ∧
      ((∃ t, s.hostWrite n v = .done (.next t) ∧ s.Stored t) ∨ ∃ e, s.hostWrite n v = .done (.refused e))) := by
  rcases number_cases n with hn | ⟨r, rfl⟩
  · obtain ⟨m, rfl⟩ : ∃ m, n = m + 1 := ⟨n - 1, by omega⟩
    exact .inr ⟨rfl, .inr ⟨_, hostWrite_none hn⟩⟩
  · cases hv : r.takes v
    · refine .inr ⟨Option.eq_none_iff_forall_ne_some.2 fun w hw => ?_, .inr ⟨_, hostWrite_takes_not hv⟩⟩
      obtain ⟨hr, rfl⟩ := commandWord_write.1 hw
      cases r <;> cases hr
      cases hv
    · rw [hostWrite_takes hv]
      rcases hostWriteReg_cases r v hv with ⟨w, rfl, rfl, e⟩ | ⟨S, rfl, rfl, e⟩ | ⟨S, rfl, rfl, e⟩ | ⟨hr, e⟩
      · exact .inl ⟨w, rfl, e⟩
      · refine .inr ⟨rfl, ?_⟩
        split at e
        · exact .inl ⟨_, e, .inr ⟨S, ‹_›, .inl rfl⟩⟩
        · exact .inr ⟨_, e⟩
      · refine .inr ⟨rfl, ?_⟩
        split at e
        · exact .inl ⟨_, e, .inr ⟨S, ‹_›, .inr rfl⟩⟩
        · exact .inr ⟨_, e⟩
      · refine .inr ⟨?_, .inl ⟨s, e, .inl rfl⟩⟩
        rcases hr with rfl | rfl | rfl | rfl | rfl <;> rfl

/-- Everything an access can come to: a command word for the block, a reset, at most a store, or a refusal. -/
theorem access_cases (s : State) (a : Input) :
    (∃ w, a.commandWord? s = some w ∧ s.access a = .command w (s.noted a)) ∨
    (a = .reset ∧ s.access a = .done (.next s.applyReset)) ∨
    (a.commandWord? s = none ∧ a ≠ .reset ∧
      ((∃ t, s.access a = .done (.next t) ∧ (s.noted a).Stored t) ∨ ∃ e, s.access a = .done (.refused e))) := by
  cases a with
  | write n v =>
    rcases hostWrite_cases s n v with h | ⟨hw, h⟩
    · exact .inl h
    · exact .inr (.inr ⟨hw, nofun, h⟩)
  | read n =>
    refine .inr (.inr ⟨rfl, nofun, ?_⟩)
    rcases number_cases n with hn | ⟨r, rfl⟩
    · exact .inr ⟨_, access_read_none hn⟩
    · exact .inl ⟨_, access_read r, .inl (noted_read s r).symm⟩
  | copy n m =>
    rcases number_cases m with hm | ⟨r, rfl⟩
    · exact .inr (.inr ⟨commandWord_copy_none hm, nofun, .inr ⟨_, access_copy_none hm⟩⟩)
    · rw [access_copy, commandWord_copy, noted_copy]
      rcases hostWrite_cases (s.noteRead r) n (s.hostRead r) with h | ⟨hw, h⟩
      · exact .inl h
      · exact .inr (.inr ⟨hw, nofun, h⟩)
  | reset => exact .inr (.inl ⟨rfl, rfl⟩)

/-! ### What a step does -/

section
variable {a : Input} {rest : List Input} {w : Word}

/-- A step whose access writes a word to COMMAND runs that word. -/
theorem step_command (h : s.inputs = a :: rest) (hw : a.commandWord? { s with inputs := rest } = some w) :
    step s = runCommand w (State.noted { s with inputs := rest } a) := by
  rw [step_input h]
  rcases access_cases { s with inputs := rest } a with ⟨w', hw', e⟩ | ⟨rfl, e⟩ | ⟨hn, -, -⟩
  · rw [e, Option.some.inj (hw.symm.trans hw')]
    rfl
  · cases hw
  · cases hw.symm.trans hn

/-- A step whose access is no reset and writes no word to COMMAND stores at most one operand. -/
theorem step_stored (h : s.inputs = a :: rest) (hw : a.commandWord? { s with inputs := rest } = none)
    (ha : a ≠ .reset) (hs : step s = .next t) : (State.noted { s with inputs := rest } a).Stored t := by
  rw [step_input h] at hs
  rcases access_cases { s with inputs := rest } a with ⟨w', hw', -⟩ | ⟨rfl, -⟩ | ⟨-, -, ⟨u, e, hu⟩ | ⟨r, e⟩⟩
  · cases hw.symm.trans hw'
  · exact absurd rfl ha
  · rw [e] at hs
    cases hs
    exact hu
  · rw [e] at hs
    cases hs

theorem step_reset (h : s.inputs = .reset :: rest) : step s = .next (State.applyReset { s with inputs := rest }) :=
  step_input h

/-- withFetchWord puts a write of the instruction's word in front. -/
theorem withFetchWord_inputs (s : State) (i : Instr) :
    (s.withFetchWord 32 (encode i).toNat).inputs = .write 0 (.word (encode i)) :: s.inputs := by
  rw [State.withFetchWord, commandWrite, Nat.mod_eq_of_lt (encode i).isLt, BitVec.ofNat_toNat, BitVec.setWidth_eq]

/-- Everything a word written to COMMAND does: it runs the command it decodes to, or completes as an illegal one. -/
theorem runCommand_cases (h : runCommand w s = .next t) :
    (∃ i, decodeCmd w = .cmd i ∧ exec i s = .next t) ∨
    ((∃ why, decodeCmd w = .illegal why) ∧ t = s.raise .illegalCommand) := by
  cases hd : decodeCmd w with
  | cmd i => exact .inl ⟨i, rfl, runCommand_cmd s hd ▸ h⟩
  | illegal why =>
    rw [runCommand_illegal s hd] at h
    cases h
    exact .inr ⟨⟨why, rfl⟩, rfl⟩

end

end Machine
end Sys2Proof
end

section
/-! SUPPORT. What each kind of command comes to, and what it leaves unchanged (10_state.md R39). -/

namespace Sys2Proof
namespace Machine

variable {s t : State} {i : Instr}

/-! ### MAXLEN -/

theorem withinMaxLen_mono {m : MaxLen} {n k : Nat} (hk : k ≤ n) (h : withinMaxLen m n = true) :
    withinMaxLen m k = true := by
  cases m with
  | unbounded => rfl
  | atLeast17 extra =>
    simp only [withinMaxLen, decide_eq_true_eq] at *
    omega

theorem withinMaxLen_of_le_17 {m : MaxLen} {n : Nat} (h : n ≤ 17) : withinMaxLen m n = true := by
  cases m with
  | unbounded => rfl
  | atLeast17 extra =>
    simp only [withinMaxLen, decide_eq_true_eq]
    omega

/-- OUT has room for an operand of MAXLEN symbols and a remainder of MAXLEN - 1 (00_scope.md R5). -/
theorem withinOutCapacity_of_codeword {m : MaxLen} {n a g : Nat} (hn : n ≤ a + (g - 1)) (ha : withinMaxLen m a = true)
    (hg : withinMaxLen m g = true) : withinOutCapacity m n = true := by
  cases m with
  | unbounded => rfl
  | atLeast17 extra =>
    simp only [withinMaxLen, withinOutCapacity, decide_eq_true_eq] at *
    omega

@[simp] theorem withinMaxLen_zero (m : MaxLen) : withinMaxLen m 0 = true := withinMaxLen_of_le_17 (by omega)

@[simp] theorem withinOutCapacity_zero (m : MaxLen) : withinOutCapacity m 0 = true := by
  cases m <;> simp [withinOutCapacity]

/-! ### Frames of the shared operations -/

theorem State.Kept.complete {s₀ : State} (h : s.Kept s₀) (c : Code) (e : Bool) (r : Option DWord) (o : Syms) :
    s.Kept (s₀.complete c e r o) where
  inA := by simp [h.inA]
  inB := by simp [h.inB]
  reserved := by rw [complete_reserved, h.reserved]
  maxLen := by simp [h.maxLen]
  inputs := by simp [h.inputs]

/-- Every command keeps the operands, the reserved bits of STATUS, MAXLEN and the accesses to come. -/
theorem exec_kept (h : exec i s = .next t) : s.Kept t := by
  obtain ⟨s₀, c, e, r, o, rfl, hs₀⟩ := exec_is_completion h
  refine State.Kept.complete ?_ c e r o
  rcases hs₀ with rfl | ⟨D, G, rfl⟩ | ⟨A, B, rfl⟩ | rfl
  · exact ⟨rfl, rfl, rfl, rfl, rfl⟩
  · exact ⟨rfl, rfl, rfl, rfl, rfl⟩
  · exact ⟨rfl, rfl, loadConfig_reserved s A B, rfl, rfl⟩
  · exact ⟨rfl, rfl, clearConfig_reserved s, rfl, rfl⟩

theorem runCommand_kept {w : Word} (h : runCommand w s = .next t) : s.Kept t := by
  rcases runCommand_cases h with ⟨i, -, hi⟩ | ⟨-, rfl⟩
  · exact exec_kept hi
  · exact ⟨rfl, rfl, raise_reserved s _, rfl, rfl⟩

/-- A completion writes no register of the configuration. -/
theorem State.SameConfig.complete {s₀ : State} (h : s.SameConfig s₀) (c : Code) (e : Bool) (r : Option DWord)
    (o : Syms) : s.SameConfig (s₀.complete c e r o) where
  gen := by simp [h.gen]
  iv := by simp [h.iv]
  cfgValid := by simp [h.cfgValid]

theorem sameConfig_refl (s : State) : s.SameConfig s := ⟨rfl, rfl, rfl⟩

theorem sameConfig_raise (s : State) (e : Code) : s.SameConfig (s.raise e) :=
  (sameConfig_refl s).complete e false none []

/-! ### What each kind of command comes to -/

/-- ENCODE, DECODE and DIVIDE: the commands that need a configuration. -/
def IsCodec (i : Instr) : Prop := i = .divide ∨ ∃ b, i = .encode b ∨ i = .decode b

/-- CONFIG, CFG_CRC6 and CFG_CRC16: the commands that write one. -/
def Configures (i : Instr) : Prop := i = .config ∨ i = .cfgCrc6 ∨ i = .cfgCrc16

theorem isCodec_or_configures (i : Instr) : IsCodec i ∨ Configures i := by
  cases i <;> simp [IsCodec, Configures]

/-- What ENCODE, DECODE or DIVIDE leaves where it goes on: an error raised in `s`, or a completion with OK after a
division. OUT then holds a bit string no longer than a codeword, and only DECODE reports an error. -/
inductive CodecEnd (i : Instr) (s : State) : State → Prop
  | raised (e : Code) (he : e ≠ .ok) : CodecEnd i s (s.raise e)
  | ok (D G : Bits) (err : Bool) (x : Bits) (hx : x.length ≤ s.inA.length + (s.gen.length - 1))
      (herr : err = true → ∃ b, i = .decode b) :
      CodecEnd i s ((s.runDivider D G).complete .ok err (s.timingReport i.fields.t) (syms x))

/-- What CONFIG or a preset leaves: a valid configuration loaded, its generator within MAXLEN wherever IN_A is, or none. -/
inductive ConfigEnd (s : State) : State → Prop
  | loaded (A B : Syms) (hA : validGen A = true) (hB : validIV B A = true)
      (hl : ∀ m, withinMaxLen m s.inA.length = true → withinMaxLen m A.length = true) :
      ConfigEnd s ((s.loadConfig A B).complete .ok false none [])
  | cleared : ConfigEnd s (s.clearConfig.raise .invalidGeneratorConfig)

theorem execDivide_end (h : execDivide s = .next t) : CodecEnd .divide s t := by
  rcases execDivide_cases s with ⟨_, e⟩ | ⟨_, _, e⟩ | ⟨_, _, e⟩ | ⟨_, _, _, _, _, _, e⟩ | ⟨D, G, _, _, hG, hl, e⟩ <;>
    cases e.symm.trans h
  · exact .raised _ nofun
  · exact .raised _ nofun
  · exact .raised _ nofun
  · obtain ⟨hgen, hv⟩ := generator_eq_some.1 hG
    have hg := (isGenerator_of_validGen hv).1
    refine .ok D G false _ ?_ nofun
    rw [length_run_remainder D G s.div (by omega) hl, hgen, length_syms]
    omega

theorem execEncode_end {b : Bool} (h : execEncode b s = .next t) : CodecEnd (.encode b) s t := by
  rcases execEncode_cases b s with ⟨_, e⟩ | ⟨_, _, e⟩ | ⟨_, _, e⟩ | ⟨d, G, V, _, hd, hG, hV, e⟩ <;> cases e.symm.trans h
  · exact .raised _ nofun
  · exact .raised _ nofun
  · obtain ⟨hgen, hv⟩ := generator_eq_some.1 hG
    have hg := (isGenerator_of_validGen hv).1
    have hVl := length_of_validIV (initialValue_eq_some.1 hV).2
    rw [hgen, length_syms, length_syms] at hVl
    refine .ok _ G false _ ?_ nofun
    rw [List.length_append, length_run_remainder _ G s.div (by omega) (by rw [length_extendedDividend]; omega), hd, hgen,
      length_syms, length_syms]

theorem execDecode_end {b : Bool} (h : execDecode b s = .next t) : CodecEnd (.decode b) s t := by
  rcases execDecode_cases b s with ⟨_, e⟩ | ⟨_, _, e⟩ | ⟨_, _, e⟩ | ⟨_, _, _, _, _, _, e⟩ | ⟨c, G, _, hc, _, _, e⟩ <;>
    cases e.symm.trans h
  · exact .raised _ nofun
  · exact .raised _ nofun
  · exact .raised _ nofun
  · exact .ok c G _ c (by simp [hc]) fun _ => ⟨b, rfl⟩

theorem exec_codec_end (hi : IsCodec i) (h : exec i s = .next t) : CodecEnd i s t := by
  rcases hi with rfl | ⟨b, rfl | rfl⟩
  · exact execDivide_end h
  · exact execEncode_end h
  · exact execDecode_end h

theorem exec_config_end (hi : Configures i) (h : exec i s = .next t) : ConfigEnd s t := by
  rcases hi with rfl | rfl | rfl
  · rcases execConfig_cases s with ⟨hA, hB, e⟩ | ⟨_, e⟩ <;> cases e.symm.trans h
    · exact .loaded _ _ hA hB fun _ h => h
    · exact .cleared
  · cases h
    exact .loaded _ _ (by decide) (by decide) fun _ _ => withinMaxLen_of_le_17 (by decide)
  · cases h
    exact .loaded _ _ (by decide) (by decide) fun _ _ => withinMaxLen_of_le_17 (by decide)

/-- The commands of a codec keep the configuration (10_state.md R39). -/
theorem CodecEnd.sameConfig (h : CodecEnd i s t) : s.SameConfig t := by
  cases h with
  | raised e => exact sameConfig_raise s e
  | ok D G =>
    have hd : s.SameConfig (s.runDivider D G) := ⟨rfl, rfl, rfl⟩
    exact hd.complete _ _ _ _

/-- Only the words 1, 5 and 6 are commands that write the configuration (30_encoding.md R71). -/
theorem word_of_configures {w : Word} (hd : decodeCmd w = .cmd i) (hi : Configures i) :
    w = 1 ∨ w = 5 ∨ w = 6 := by
  rw [← encode_of_decodeCmd hd]
  rcases hi with rfl | rfl | rfl <;> decide

theorem runCommand_sameConfig {w : Word} (h : runCommand w s = .next t)
    (hw : w ≠ 1 ∧ w ≠ 5 ∧ w ≠ 6) : s.SameConfig t := by
  obtain ⟨h1, h5, h6⟩ := hw
  rcases runCommand_cases h with ⟨i, hd, hi⟩ | ⟨-, rfl⟩
  · rcases isCodec_or_configures i with hc | hc
    · exact (exec_codec_end hc hi).sameConfig
    · rcases word_of_configures hd hc with rfl | rfl | rfl <;> contradiction
  · exact sameConfig_raise s _

end Machine
end Sys2Proof
end

section
/-! SUPPORT. The invariant, operation by operation (10_state.md R22 to R38), and in every reachable state. -/

namespace Sys2Proof
namespace Machine

variable {s t : State} {i : Instr}

/-- A state with the registers' reset values meets the invariant, whatever MAXLEN and the model's own fields are. -/
theorem inv_reset (m : MaxLen) (d : Div) (l : List Input) (h : List Event) (n : Nat) :
    State.Inv { State.resetOf m with div := d, inputs := l, history := h, draws := n } where
  reserved := BitVec.zero_and
  code := Nat.zero_le _
  config := .inr ⟨BitVec.getLsbD_zero, rfl, rfl⟩
  time := fun _ => rfl
  flags := fun _ => rfl
  outSyms := rfl
  capacity := ⟨withinMaxLen_zero m, withinMaxLen_zero m, withinMaxLen_zero m,
    withinMaxLen_of_le_17 (Nat.le_add_left 1 16), withinOutCapacity_zero m⟩

namespace State.Inv

theorem applyReset (s : State) : s.applyReset.Inv := inv_reset s.maxLen _ _ _ _

/-- The invariant says nothing of what the host has observed. -/
theorem withHistory (h : s.Inv) (l : List Event) : State.Inv { s with history := l } :=
  { h with capacity := { h.capacity with } }

theorem noted (h : s.Inv) (a : Input) : (s.noted a).Inv := h.withHistory _

/-- A store into IN_A or IN_B within MAXLEN keeps the invariant. -/
theorem stored (h : s.Inv) (ht : s.Stored t) : t.Inv := by
  rcases ht with rfl | ⟨S, hS, rfl | rfl⟩
  · exact h
  · exact { h with capacity := { h.capacity with inA := hS } }
  · exact { h with capacity := { h.capacity with inB := hS } }

theorem runDivider (h : s.Inv) (D G : Bits) : (s.runDivider D G).Inv :=
  { h with capacity := { h.capacity with } }

/-- Loading a valid configuration that fits GEN and IV keeps the invariant. -/
theorem loadConfig (h : s.Inv) {A B : Syms} (hA : validGen A = true) (hB : validIV B A = true)
    (hl : withinMaxLen s.maxLen A.length = true) : (s.loadConfig A B).Inv where
  reserved := by rw [loadConfig_reserved, h.reserved]
  code := by simpa using h.code
  config := .inl ⟨loadConfig_cfgValid s A B, hA, hB⟩
  time := by simpa using h.time
  flags := by simpa using h.flags
  outSyms := h.outSyms
  capacity := by
    have hB := length_of_validIV hB
    have hA := two_le_of_validGen hA
    exact { h.capacity with gen := hl, iv := withinMaxLen_mono (by rw [loadConfig_iv]; omega) hl }

theorem clearConfig (h : s.Inv) : s.clearConfig.Inv where
  reserved := by rw [clearConfig_reserved, h.reserved]
  code := by simpa using h.code
  config := .inr ⟨clearConfig_cfgValid s, rfl, rfl⟩
  time := by simpa using h.time
  flags := by simpa using h.flags
  outSyms := h.outSyms
  capacity := { h.capacity with gen := withinMaxLen_zero _, iv := withinMaxLen_of_le_17 (by simp) }

/-- A completion keeps the invariant where OUT gets valid symbols within its capacity and the flags only with OK. -/
theorem complete (h : s.Inv) {c : Code} {e : Bool} {r : Option DWord} {o : Syms}
    (hc : e = true ∨ r.isSome = true → c = .ok) (ho : validSyms o = true)
    (hl : withinOutCapacity s.maxLen o.length = true) : (s.complete c e r o).Inv where
  reserved := by rw [complete_reserved, h.reserved]
  code := by simpa using toBits_toNat_le c
  config := by simpa [ConfigOk] using h.config
  time := by cases r <;> simp
  flags := by simpa using hc
  outSyms := by simpa using ho
  capacity := by
    obtain ⟨hA, hB, hG, hV, -⟩ := h.capacity
    constructor <;> simpa

theorem raise (h : s.Inv) (e : Code) : (s.raise e).Inv :=
  h.complete (by simp) rfl (withinOutCapacity_zero _)

/-- A codec command keeps the invariant. -/
theorem codecEnd (h : s.Inv) (ht : CodecEnd i s t) : t.Inv := by
  cases ht with
  | raised e => exact h.raise e
  | ok D G err x hx =>
    refine (h.runDivider D G).complete (fun _ => rfl) (validSyms_syms x) ?_
    rw [length_syms]
    exact withinOutCapacity_of_codeword hx h.capacity.inA h.capacity.gen

/-- CONFIG and the presets keep the invariant. -/
theorem configEnd (h : s.Inv) (ht : ConfigEnd s t) : t.Inv := by
  cases ht with
  | loaded A B hA hB hl =>
    exact (h.loadConfig hA hB (hl _ h.capacity.inA)).complete (by simp) rfl (withinOutCapacity_zero _)
  | cleared => exact h.clearConfig.raise _

end State.Inv

theorem exec_keeps_inv (h : s.Inv) (ht : exec i s = .next t) : t.Inv := by
  rcases isCodec_or_configures i with hi | hi
  · exact h.codecEnd (exec_codec_end hi ht)
  · exact h.configEnd (exec_config_end hi ht)

theorem runCommand_keeps_inv {w : Word} (h : s.Inv) (ht : runCommand w s = .next t) : t.Inv := by
  rcases runCommand_cases ht with ⟨i, -, hi⟩ | ⟨-, rfl⟩
  · exact exec_keeps_inv h hi
  · exact h.raise _

/-- Every step keeps the invariant, and MAXLEN. -/
theorem step_keeps_inv (h : s.Inv) (ht : step s = .next t) : t.Inv ∧ t.maxLen = s.maxLen := by
  cases hs : s.inputs with
  | nil =>
    cases (step_idle hs).symm.trans ht
    exact ⟨h, rfl⟩
  | cons a rest =>
    have hu := (h.withInputs rest).noted a
    by_cases ha : a = .reset
    · subst ha
      cases (step_reset hs).symm.trans ht
      exact ⟨.applyReset _, rfl⟩
    · cases hw : a.commandWord? { s with inputs := rest } with
      | some w =>
        rw [step_command hs hw] at ht
        exact ⟨runCommand_keeps_inv hu ht, (runCommand_kept ht).maxLen⟩
      | none =>
        have hst := step_stored hs hw ha ht
        exact ⟨hu.stored hst, hst.maxLen⟩

/-- The invariant holds in every state a run reaches (70_reset_and_hazards.md R198). -/
theorem Reachable.inv (h : Reachable s) : s.Inv := by
  induction h with
  | start m script => exact inv_reset m _ script _ _
  | step _ ht ih => exact (step_keeps_inv ih ht).1

end Machine
end Sys2Proof
end

section
/-! SUPPORT. Every command completes, with one code (60_exceptions.md R161), and writes TIME and ERR_DETECTED as
10_state.md R25 and R26 say. -/

namespace Sys2Proof
namespace Machine

variable {s t : State} {i : Instr}

/-! ### Every command completes -/

/-- With the configuration invariant a loaded configuration defines `G` and `IVb` (00_scope.md R11). -/
theorem State.ConfigOk.values (h : s.ConfigOk) (hc : s.cfgValid = true) :
    ∃ G V, s.generator? = some G ∧ s.initialValue? = some V := by
  rcases h.cases with ⟨hn, -, -⟩ | ⟨G, V, hGV⟩
  · cases hc.symm.trans hn
  · exact ⟨G, V, hGV.generator, hGV.initialValue⟩

/-- With the configuration invariant no command faults (60_exceptions.md R170). -/
theorem exec_goes_on (h : s.ConfigOk) (i : Instr) : ∃ t, exec i s = .next t := by
  have hv := h.values
  cases i with
  | config => rcases execConfig_cases s with ⟨_, _, e⟩ | ⟨_, e⟩ <;> exact ⟨_, e⟩
  | encode b =>
    rcases execEncode_cases b s with ⟨_, e⟩ | ⟨_, _, e⟩ | ⟨hc, hn, _⟩ | ⟨_, _, _, _, _, _, _, e⟩
    · exact ⟨_, e⟩
    · exact ⟨_, e⟩
    · obtain ⟨G, V, hG, hV⟩ := hv hc
      simp [hG, hV] at hn
    · exact ⟨_, e⟩
  | decode b =>
    rcases execDecode_cases b s with ⟨_, e⟩ | ⟨_, _, e⟩ | ⟨hc, hn, _⟩ | ⟨_, _, _, _, _, _, e⟩ | ⟨_, _, _, _, _, _, e⟩
    · exact ⟨_, e⟩
    · exact ⟨_, e⟩
    · obtain ⟨G, V, hG, -⟩ := hv hc
      cases hn.symm.trans hG
    · exact ⟨_, e⟩
    · exact ⟨_, e⟩
  | divide =>
    rcases execDivide_cases s with ⟨_, e⟩ | ⟨_, _, e⟩ | ⟨hc, hn, _⟩ | ⟨_, _, _, _, _, _, e⟩ | ⟨_, _, _, _, _, _, e⟩
    · exact ⟨_, e⟩
    · exact ⟨_, e⟩
    · obtain ⟨G, V, hG, -⟩ := hv hc
      cases hn.symm.trans hG
    · exact ⟨_, e⟩
    · exact ⟨_, e⟩
  | cfgCrc6 => exact ⟨_, rfl⟩
  | cfgCrc16 => exact ⟨_, rfl⟩

theorem runCommand_goes_on (h : s.ConfigOk) (w : Word) : ∃ t, runCommand w s = .next t := by
  cases hd : decodeCmd w with
  | cmd i => simpa only [runCommand_cmd s hd] using exec_goes_on h i
  | illegal why => exact ⟨_, runCommand_illegal s hd⟩

/-- A command that goes on writes one code and logs that one completion (60_exceptions.md R161, R169). -/
theorem exec_completes (h : exec i s = .next t) :
    ∃ c : Code, t.codeField = c.toBits ∧ t.history = .completed c :: s.history := by
  obtain ⟨s₀, c, e, r, o, rfl, hs₀⟩ := exec_is_completion h
  refine ⟨c, complete_codeField .., ?_⟩
  rw [complete_history]
  rcases hs₀ with rfl | ⟨D, G, rfl⟩ | ⟨A, B, rfl⟩ | rfl <;> rfl

theorem runCommand_completes {w : Word} (h : runCommand w s = .next t) :
    ∃ c : Code, t.codeField = c.toBits ∧ t.history = .completed c :: s.history := by
  rcases runCommand_cases h with ⟨i, -, hi⟩ | ⟨-, rfl⟩
  · exact exec_completes hi
  · exact ⟨_, raise_codeField .., raise_history ..⟩

/-! ### TIME and ERR_DETECTED -/

/-- The timing report `t` shows (10_state.md R26, R33): the draw where the command was timed and completed with OK, and
none otherwise. -/
structure State.ReportsTime (s t : State) (timed : Prop) : Prop where
  valid : t.timeValid = true ↔ timed ∧ t.code? = some .ok
  draw : t.timeValid = true → t.time = Config.timeDraw s.draws
  zero : t.timeValid = false → t.time = 0

theorem raise_reportsTime (s : State) {e : Code} (he : e ≠ .ok) (timed : Prop) : s.ReportsTime (s.raise e) timed :=
  ⟨by simp [he], by simp, by simp⟩

theorem CodecEnd.reportsTime (h : CodecEnd i s t) : s.ReportsTime t (i.fields.t = true) := by
  cases h with
  | raised e he => exact raise_reportsTime s he _
  | ok =>
    cases i.fields.t with
    | false => constructor <;> simp [State.timingReport]
    | true => constructor <;> simp [State.timingReport]

/-- CONFIG and the presets report no time, no error and no value. -/
theorem ConfigEnd.noResults (h : ConfigEnd s t) :
    t.errDetected = false ∧ t.timeValid = false ∧ t.time = 0 ∧ t.out = [] := by
  cases h <;> simp

theorem fields_t_of_configures (hi : Configures i) : i.fields.t = false := by
  rcases hi with rfl | rfl | rfl <;> rfl

theorem exec_reportsTime (h : exec i s = .next t) : s.ReportsTime t (i.fields.t = true) := by
  rcases isCodec_or_configures i with hi | hi
  · exact (exec_codec_end hi h).reportsTime
  · obtain ⟨-, hv, ht, -⟩ := (exec_config_end hi h).noResults
    exact ⟨by simp [hv, fields_t_of_configures hi], by simp [hv], fun _ => ht⟩

/-- Only ENCODE.T and DECODE.T ask for a report (30_encoding.md R72). -/
theorem fields_t_iff : i.fields.t = true ↔ i = .encode true ∨ i = .decode true := by
  cases i <;> simp [Instr.fields]

theorem runCommand_reportsTime {w : Word} (h : runCommand w s = .next t) :
    s.ReportsTime t (decodeCmd w = .cmd (.encode true) ∨ decodeCmd w = .cmd (.decode true)) := by
  rcases runCommand_cases h with ⟨i, hd, hi⟩ | ⟨-, rfl⟩
  · have := exec_reportsTime hi
    simpa only [hd, Decoded.cmd.injEq, fields_t_iff] using this
  · exact raise_reportsTime s (e := .illegalCommand) nofun _

/-- Only a DECODE that completes with OK reports an error (10_state.md R25). -/
theorem exec_errDetected (h : exec i s = .next t) (he : t.errDetected = true) :
    (∃ b, i = .decode b) ∧ t.code? = some .ok := by
  rcases isCodec_or_configures i with hi | hi
  · cases exec_codec_end hi h with
    | raised e => simp at he
    | ok D G err x hx herr => exact ⟨herr (by simpa using he), complete_codeName ..⟩
  · obtain ⟨hn, -⟩ := (exec_config_end hi h).noResults
    cases hn.symm.trans he

theorem runCommand_errDetected {w : Word} (h : runCommand w s = .next t) (he : t.errDetected = true) :
    (∃ b, decodeCmd w = .cmd (.decode b)) ∧ t.code? = some .ok := by
  rcases runCommand_cases h with ⟨i, hd, hi⟩ | ⟨-, rfl⟩
  · simpa only [hd, Decoded.cmd.injEq] using exec_errDetected hi he
  · simp at he

/-- DECODE's flag is the remainder's, whatever the divider held before (10_state.md R25, 41_codec.md R131). -/
theorem exec_decode_errDetected {b : Bool} {c G : Bits} (h : exec (.decode b) s = .next t) (hok : t.code? = some .ok)
    (hc : s.inA = syms c) (hG : s.gen = syms G) : t.errDetected = !isZero (divide c G) := by
  rcases execDecode_cases b s with ⟨_, e⟩ | ⟨_, _, e⟩ | ⟨_, _, e⟩ | ⟨_, _, _, _, _, _, e⟩ | ⟨c', G', _, hc', hG', _, e⟩ <;>
    cases e.symm.trans h
  · simp at hok
  · simp at hok
  · simp at hok
  · obtain rfl := syms_injective (hc'.symm.trans hc)
    obtain rfl := syms_injective ((generator_eq_some.1 hG').1.symm.trans hG)
    rw [complete_errDetected, syndromeNonZero_eq, run_eq_run c' G' s.div Div.atReset]
    rfl

end Machine
end Sys2Proof
end

section
/-! PROOFS. The statements of 10_state.md, each assembled from the lemmas above. -/

namespace Sys2Proof
namespace Machine

/-- Settles O54, case by case over what a step does: each shared operation keeps the invariant. -/
theorem stepKeepsInvariant : Obligations.StepKeepsInvariant := by
  intro s t h ht
  exact step_keeps_inv h ht

/-- Settles O8, by the lengths the registers have after any number of steps. -/
theorem dividerRegistersKeepLengths : Obligations.DividerRegistersKeepLengths := by
  intro D G d hG hn
  have hg : 1 ≤ G.length := Nat.le_of_succ_le hG.1
  have hr := length_load_r D G d hn
  refine ⟨fun k _ => ⟨length_steps D G 0 _ hg k hr, ?_, fun hk => ?_⟩, length_quotient D G⟩
  · rw [length_steps_q, load_q, List.length_nil, Nat.zero_add]
  · obtain ⟨m, rfl⟩ : ∃ m, k = m + 1 := ⟨k - 1, by omega⟩
    exact ⟨length_steps_t D G 0 m _ hg hr, by rw [steps_k, Nat.zero_add, Nat.add_sub_cancel]⟩

/-- Settles O39: only DECODE's completion with OK can set the flag, and it sets it from the remainder. -/
theorem errDetectedOnlyFromDecode : Obligations.ErrDetectedOnlyFromDecode := by
  refine ⟨fun s t a rest w hs hw ht => ?_, fun m => BitVec.getLsbD_zero⟩
  rw [step_command hs hw] at ht
  constructor
  · intro b c G hd hok hc hG
    rw [runCommand_cmd _ hd] at ht
    exact exec_decode_errDetected ht hok hc hG
  · intro hn
    exact Bool.eq_false_iff.2 fun he => hn (runCommand_errDetected ht he)

/-- Settles O40: every command reports its time as R26 says, and a step without a command leaves STATUS, TIME and OUT. -/
theorem timeValidIffTimedOk : Obligations.TimeValidIffTimedOk := by
  refine ⟨fun s t a rest w hs hw ht => ?_, fun s t a rest hs hw ha ht => ?_, fun m => ⟨BitVec.getLsbD_zero, rfl⟩⟩
  · rw [step_command hs hw] at ht
    obtain ⟨hv, hd, hz⟩ := runCommand_reportsTime ht
    exact ⟨hv, hd, hz⟩
  · obtain ⟨hst, htime, hout⟩ := (step_stored hs hw ha ht).results
    exact ⟨congrArg (·.getLsbD 10) hst, htime, hst, hout⟩

/-- Settles O44: with a valid configuration or none every command goes on, and it ends in one completion. -/
theorem everyCommandCompletesOnce : Obligations.EveryCommandCompletesOnce := by
  intro s a rest w hs hw
  rw [step_command hs hw]
  refine ⟨fun h => runCommand_goes_on ((h.withInputs rest).noted a).config w, fun t ht => ?_⟩
  obtain ⟨c, hc, hist⟩ := runCommand_completes ht
  refine ⟨c, hc, hc ▸ toBits_toNat_le c, ?_, ?_⟩
  · rintro v rfl
    exact hist
  · rintro r rfl
    rw [hist, noted_history, notes_copy]
    rfl

/-- Settles O45, from what each command keeps and what a codec command can end in. -/
theorem codecCommandsFrame : Obligations.CodecCommandsFrame := by
  intro s t i hi h
  exact ⟨exec_kept h, (exec_codec_end hi h).sameConfig⟩

/-- Settles O46, from what each command keeps and what a configuring command can end in. -/
theorem configCommandsFrame : Obligations.ConfigCommandsFrame := by
  intro s t i hi h
  exact ⟨exec_kept h, (exec_config_end hi h).noResults⟩

/-- Settles O47: a command other than the three keeps the configuration, and a store does not touch it. -/
theorem configurationIsImmutable : Obligations.ConfigurationIsImmutable := by
  intro s t a rest hs ht ha hw
  cases hc : a.commandWord? { s with inputs := rest } with
  | some w =>
    rw [step_command hs hc] at ht
    obtain ⟨hgen, hiv, hv⟩ := runCommand_sameConfig ht (hw w hc)
    exact ⟨hgen, hiv, hv⟩
  | none =>
    obtain ⟨hgen, hiv, hv⟩ := (step_stored hs hc ha ht).sameConfig
    exact ⟨hgen, hiv, hv⟩

/-- Settles O55, from the invariant of reachable states. -/
theorem reachableConfigurationValid : Obligations.ReachableConfigurationValid := by
  intro s h
  rcases h.inv.config.cases with hn | ⟨G, V, hGV⟩
  · exact .inr hn
  · exact .inl ⟨hGV.cfgValid, G, V, hGV.gen, hGV.iv, hGV.isGenerator, hGV.ivLength⟩

/-- Settles O56, from the invariant of reachable states. -/
theorem statusReadsAsItsFields : Obligations.StatusReadsAsItsFields := by
  intro s h
  exact ⟨status_eq_statusWord h.inv.reserved, h.inv.reserved, h.inv.code⟩

/-- Settles O4: each way a legal word reaches COMMAND hands it to the decoder. -/
theorem stepRunsDecodedCommand : Obligations.StepRunsDecodedCommand := by
  refine ⟨fun s rest w i hs hd => ?_, fun s rest r w i hs hr hd => ?_, fun s i => ?_, fun s => step_idle⟩
  · rw [step_command hs rfl, runCommand_cmd _ hd, noted_write]
  · have hw : (Input.copy 0 r.number).commandWord? { s with inputs := rest } = some w :=
      (commandWord_copy 0 r).trans (commandWord_write.2 ⟨rfl, hr⟩)
    rw [step_command hs hw, runCommand_cmd _ hd, noted_copy]
  · rw [step_command (withFetchWord_inputs s i) rfl, runCommand_cmd _ (decodeCmd_encode i), noted_write]
    rfl

/-- Settles O48, since a write of a read-only register stores nothing. -/
theorem readOnlyWritesIgnored : Obligations.ReadOnlyWritesIgnored := by
  intro s rest r v hr hv hs
  rw [step_input hs, access_write hv, hostWriteReg_readOnly hr]
  rfl

/-- Settles O50: a number above 7 names no register, and the operand stores check MAXLEN. -/
theorem outsideAccessesRefused : Obligations.OutsideAccessesRefused := by
  refine ⟨fun s rest n v hn hs => ?_, fun s rest n m hnm hs => ?_, fun s rest S extra hm hl => ?_⟩
  · rcases hs with hs | hs
    · rw [step_input hs]
      exact congrArg runPort (hostWrite_none hn)
    · rw [step_input hs, access_read_none hn]
      rfl
  · rw [step_input hs]
    rcases number_cases m with hm | ⟨r, rfl⟩
    · exact ⟨m, hm, congrArg runPort (access_copy_none hm)⟩
    · have hn : 8 ≤ n := by
        have := number_lt r
        omega
      rw [access_copy, hostWrite_none hn]
      exact ⟨n, hn, rfl⟩
  · have hno : withinMaxLen s.maxLen S.length = false := by simp [withinMaxLen, hm, hl]
    refine ⟨fun hs => ?_, fun hs => ?_⟩ <;> rw [step_input hs]
    · exact congrArg runPort (if_neg (by simp [hno]))
    · exact congrArg runPort (if_neg (by simp [hno]))

end Machine
end Sys2Proof
end

section
/-! SUPPORT. Noninterference of the commands that need a configuration (20_memory.md R63): what they report is read off
the configuration, IN_A and the draw alone. -/

namespace Sys2Proof
namespace Machine

variable {s s' t : State}

/-- `s'` agrees with `s` on the configuration and IN_A. -/
structure State.SameOperands (s s' : State) : Prop where
  gen : s'.gen = s.gen
  iv : s'.iv = s.iv
  cfgValid : s'.cfgValid = s.cfgValid
  inA : s'.inA = s.inA

/-- `t'`, left by a command from `s'`, shows the results that `t` shows, left by it from `s`; TIME at the same draw. -/
structure State.SameResults (s s' t t' : State) : Prop where
  out : t'.out = t.out
  codeField : t'.codeField = t.codeField
  errDetected : t'.errDetected = t.errDetected
  timeValid : t'.timeValid = t.timeValid
  time : s'.draws = s.draws → t'.time = t.time

theorem State.SameOperands.generator (h : s.SameOperands s') : s'.generator? = s.generator? := by
  simp only [State.generator?, h.gen]

theorem State.SameOperands.initialValue (h : s.SameOperands s') : s'.initialValue? = s.initialValue? := by
  simp only [State.initialValue?, h.gen, h.iv]

@[simp] theorem timingReport_isSome (b : Bool) (s : State) : (s.timingReport b).isSome = b := by
  cases b <;> rfl

theorem timingReport_of_draws (b : Bool) (h : s'.draws = s.draws) : s'.timingReport b = s.timingReport b := by
  simp only [State.timingReport, h]

/-- An error completion shows nothing of the state it is raised in. -/
theorem sameResults_raise (s s' : State) (e : Code) : s.SameResults s' (s.raise e) (s'.raise e) where
  out := rfl
  codeField := by simp
  errDetected := by simp
  timeValid := by simp
  time _ := rfl

/-- A completion after a division shows of its state nothing but the draw. -/
theorem sameResults_complete (s s' : State) (D G : Bits) (c : Code) (e b : Bool) (o : Syms) :
    s.SameResults s' ((s.runDivider D G).complete c e (s.timingReport b) o)
      ((s'.runDivider D G).complete c e (s'.timingReport b) o) where
  out := by simp
  codeField := by simp
  errDetected := by simp
  timeValid := by simp
  time h := by simp [timingReport_of_draws b h]

theorem execDivide_sameResults (h : s.SameOperands s') (ht : execDivide s = .next t) :
    ∃ t', execDivide s' = .next t' ∧ s.SameResults s' t t' := by
  rcases execDivide_cases s with ⟨hc, e⟩ | ⟨hc, hv, e⟩ | ⟨_, _, e⟩ | ⟨D, G, hc, hD, hG, hl, e⟩ |
      ⟨D, G, hc, hD, hG, hl, e⟩ <;> cases e.symm.trans ht <;> rw [← h.cfgValid] at hc
  · exact ⟨_, execDivide_notConfigured hc, sameResults_raise s s' _⟩
  · exact ⟨_, execDivide_invalid hc (h.inA ▸ hv), sameResults_raise s s' _⟩
  · exact ⟨_, execDivide_short hc (h.inA.trans hD) (h.generator.trans hG) hl, sameResults_raise s s' _⟩
  · exact ⟨_, execDivide_ok hc (h.inA.trans hD) (h.generator.trans hG) hl,
      sameResults_complete s s' D G .ok false false _⟩

theorem execEncode_sameResults {b : Bool} (h : s.SameOperands s') (ht : execEncode b s = .next t) :
    ∃ t', execEncode b s' = .next t' ∧ s.SameResults s' t t' := by
  rcases execEncode_cases b s with ⟨hc, e⟩ | ⟨hc, hv, e⟩ | ⟨_, _, e⟩ | ⟨d, G, V, hc, hd, hG, hV, e⟩ <;>
    cases e.symm.trans ht <;> rw [← h.cfgValid] at hc
  · exact ⟨_, execEncode_notConfigured b hc, sameResults_raise s s' _⟩
  · exact ⟨_, execEncode_invalid b hc (h.inA ▸ hv), sameResults_raise s s' _⟩
  · exact ⟨_, execEncode_ok b hc (h.inA.trans hd) (h.generator.trans hG) (h.initialValue.trans hV),
      sameResults_complete s s' _ G .ok false b _⟩

theorem execDecode_sameResults {b : Bool} (h : s.SameOperands s') (ht : execDecode b s = .next t) :
    ∃ t', execDecode b s' = .next t' ∧ s.SameResults s' t t' := by
  rcases execDecode_cases b s with ⟨hc, e⟩ | ⟨hc, hv, e⟩ | ⟨_, _, e⟩ | ⟨c, G, hc, hI, hG, hl, e⟩ |
      ⟨c, G, hc, hI, hG, hl, e⟩ <;> cases e.symm.trans ht <;> rw [← h.cfgValid] at hc
  · exact ⟨_, execDecode_notConfigured b hc, sameResults_raise s s' _⟩
  · exact ⟨_, execDecode_invalid b hc (h.inA ▸ hv), sameResults_raise s s' _⟩
  · exact ⟨_, execDecode_short b hc (h.inA.trans hI) (h.generator.trans hG) hl, sameResults_raise s s' _⟩
  · exact ⟨_, execDecode_ok b hc (h.inA.trans hI) (h.generator.trans hG) hl, sameResults_complete s s' c G .ok _ b _⟩

/-- ENCODE, DECODE and DIVIDE report the same from any two states with the same configuration and IN_A. -/
theorem exec_sameResults {i : Instr} (hi : IsCodec i) (h : s.SameOperands s') (ht : exec i s = .next t) :
    ∃ t', exec i s' = .next t' ∧ s.SameResults s' t t' := by
  rcases hi with rfl | ⟨b, rfl | rfl⟩
  · exact execDivide_sameResults h ht
  · exact execEncode_sameResults h ht
  · exact execDecode_sameResults h ht

end Machine
end Sys2Proof
end

section
/-! SUPPORT. The kinds of access of 20_memory.md R59: reads and stores of an operand, and writes of a read-only register. -/

namespace Sys2Proof
namespace Machine

variable {s t : State} {rest : List Input}

/-- The accesses to come and the history are no registers. -/
theorem hostRead_with_inputs_history (s : State) (l : List Input) (x : List Event) (r : Reg) :
    State.hostRead { s with inputs := l, history := x } r = s.hostRead r := by
  cases r <;> rfl

/-- A read answers the register's value and leaves every register. -/
theorem step_read {r : Reg} (h : s.inputs = .read r.number :: rest) :
    step s = .next { s with inputs := rest, history := .readBack r (s.hostRead r) :: s.history } := by
  rw [step_input h, access_read, runPort_done, State.noteRead, hostRead_with_inputs_history s rest s.history]

/-- The second of two reads meets the registers the first met, and answers the same value. -/
theorem step_read_twice {r : Reg} (h : s.inputs = .read r.number :: .read r.number :: rest) :
    ∃ t u, step s = .next t ∧ step t = .next u ∧
      u = { s with inputs := rest,
                   history := .readBack r (s.hostRead r) :: .readBack r (s.hostRead r) :: s.history } := by
  refine ⟨_, _, step_read h, step_read (rest := rest) rfl, ?_⟩
  rw [hostRead_with_inputs_history s (.read r.number :: rest)]

theorem step_write_command {w : Word} (h : s.inputs = .write 0 (.word w) :: rest) :
    step s = runCommand w { s with inputs := rest } := by
  rw [step_command h rfl, noted_write]

theorem step_write_inA {S : Syms} (hS : withinMaxLen s.maxLen S.length = true)
    (h : s.inputs = .write 2 (.syms S) :: rest) : step s = .next { s with inA := S, inputs := rest } := by
  rw [step_input h]
  exact congrArg runPort (if_pos hS)

theorem step_write_inB {S : Syms} (hS : withinMaxLen s.maxLen S.length = true)
    (h : s.inputs = .write 3 (.syms S) :: rest) : step s = .next { s with inB := S, inputs := rest } := by
  rw [step_input h]
  exact congrArg runPort (if_pos hS)

/-- The numbers of the read-only registers (10_state.md R20, R34). -/
theorem readOnly_of_number {n : Nat} (hn : n = 1 ∨ 4 ≤ n ∧ n ≤ 7) :
    ∃ r : Reg, n = r.number ∧ (r = .status ∨ r = .out ∨ r = .gen ∨ r = .iv ∨ r = .time) := by
  rcases number_cases n with h8 | ⟨r, rfl⟩
  · omega
  · refine ⟨r, rfl, ?_⟩
    cases r <;> simp [Reg.number] at hn ⊢

/-- A write of a read-only register that goes on, so of the register's own width, has no effect. -/
theorem step_write_readOnly {n : Nat} {v : RegValue} (hn : n = 1 ∨ 4 ≤ n ∧ n ≤ 7)
    (h : s.inputs = .write n v :: rest) (ht : step s = .next t) : t = { s with inputs := rest } := by
  obtain ⟨r, rfl, hr⟩ := readOnly_of_number hn
  rw [step_input h] at ht
  cases hv : r.takes v with
  | true =>
    rw [access_write hv, hostWriteReg_readOnly hr] at ht
    cases ht
    rfl
  | false =>
    rw [State.access, hostWrite_takes_not hv] at ht
    cases ht

end Machine
end Sys2Proof
end

section
/-! PROOFS. The statements of 20_memory.md, each assembled from the lemmas above. -/

namespace Sys2Proof
namespace Machine

/-- Settles O42: each command reads only the configuration and IN_A, and its timing report only the draw. -/
theorem resultsDependOnlyOnInputs : Obligations.ResultsDependOnlyOnInputs := by
  intro s s' t i hi hgen hiv hcfg hinA ht
  obtain ⟨t', ht', hout, hcode, herr, hvalid, htime⟩ := exec_sameResults hi ⟨hgen, hiv, hcfg, hinA⟩ ht
  exact ⟨t', ht', hout, hcode, herr, hvalid, htime⟩

/-- Settles O49, one kind of access at a time. -/
theorem accessSideEffects : Obligations.AccessSideEffects :=
  ⟨fun _ _ _ hs => step_write_command hs, fun _ _ _ hS hs => step_write_inA hS hs, fun _ _ _ hS hs => step_write_inB hS hs,
    fun _ _ _ _ hs hn _ ht => step_write_readOnly hn hs ht, fun _ _ _ hs => step_read hs, fun _ _ _ hs => step_read_twice hs,
    fun _ => ⟨rfl, rfl, rfl, rfl, rfl, rfl, rfl, rfl⟩⟩

/-- Settles O59: the eight bits of a byte by position, and the bytes by the recursion of the concatenation. -/
theorem byteToBitBoundary : Obligations.ByteToBitBoundary := by
  refine ⟨fun b j hj => ?_, fun b => rfl, fun b bs => List.flatMap_cons, rfl, by decide⟩
  interval_cases j <;> rfl

end Machine
end Sys2Proof
end

section
/-! SUPPORT. The decoder as the table of 30_encoding.md R71 and R74, in the arithmetic of the word. -/

namespace Sys2Proof
namespace Machine

/-! ### The fields of a word (30_encoding.md R70) -/

theorem unpack_op_toNat (w : Word) : (unpack w).op.toNat = w.toNat % 16 := by
  simp [unpack]

theorem unpack_t (w : Word) : (unpack w).t = decide (w.toNat / 16 % 2 = 1) := by
  simp [unpack, BitVec.getLsbD, Nat.testBit_eq_decide_div_mod_eq]

theorem unpack_rsvd_ne_zero (w : Word) : (unpack w).rsvd ≠ 0 ↔ w.toNat / 32 ≠ 0 := by
  have hlt : w.toNat / 32 < 2 ^ 27 := by omega
  have hrsvd : (unpack w).rsvd.toNat = w.toNat / 32 := by
    simpa [unpack, Nat.shiftRight_eq_div_pow] using hlt
  rw [Ne, ← BitVec.toNat_inj, hrsvd]
  rfl

/-! ### The table -/

/-- The row of the table of 30_encoding.md R71 for an operation selector and T, where R72 allows that T. -/
def tableRow (op : Nat) (t : Bool) : Option Instr :=
  match op, t with
  | 1, false => some .config
  | 2, t => some (.encode t)
  | 3, t => some (.decode t)
  | 4, false => some .divide
  | 5, false => some .cfgCrc6
  | 6, false => some .cfgCrc16
  | _, _ => none

/-- The selectors without a row are reserved (30_encoding.md R71). -/
theorem tableRow_none {op : Nat} (h1 : op ≠ 1) (h2 : op ≠ 2) (h3 : op ≠ 3) (h4 : op ≠ 4) (h5 : op ≠ 5) (h6 : op ≠ 6)
    (t : Bool) : tableRow op t = none := by
  unfold tableRow
  split <;> simp_all only [ne_eq, not_true_eq_false]

/-- A command that takes no timing report decodes to its row where the row is there for T = 0 only (30_encoding.md R72). -/
theorem untimed_instr {f : CmdFields} {i : Instr} {n : Nat} (hop : f.op.toNat = n)
    (hrow : ∀ t, tableRow n t = if t then none else some i) : (untimed f i).instr? = tableRow f.op.toNat f.t := by
  rw [hop, hrow, untimed]
  split <;> rfl

/-- Fields whose reserved bits are zero decode to their row of the table, the others to nothing (30_encoding.md R74). -/
theorem decodeFields_instr (f : CmdFields) :
    (decodeFields f).instr? = if f.rsvd ≠ 0 then none else tableRow f.op.toNat f.t := by
  unfold decodeFields
  split
  · rfl
  · split
    · exact untimed_instr ‹f.op.toNat = 1› (by decide)
    · rw [‹f.op.toNat = 2›]
      rfl
    · rw [‹f.op.toNat = 3›]
      rfl
    · exact untimed_instr ‹f.op.toNat = 4› (by decide)
    · exact untimed_instr ‹f.op.toNat = 5› (by decide)
    · exact untimed_instr ‹f.op.toNat = 6› (by decide)
    · rename_i h1 h2 h3 h4 h5 h6
      exact (tableRow_none h1 h2 h3 h4 h5 h6 f.t).symm

/-! ### The legal words -/

/-- The instructions, in the order of the table of 30_encoding.md R71. -/
def allInstrs : List Instr :=
  [.config, .encode false, .encode true, .decode false, .decode true, .divide, .cfgCrc6, .cfgCrc16]

theorem mem_allInstrs (i : Instr) : i ∈ allInstrs := by
  cases i with
  | encode t => cases t <;> decide
  | decode t => cases t <;> decide
  | config | divide | cfgCrc6 | cfgCrc16 => decide

/-- The legal words are the words of the instructions. -/
theorem decodeCmd_isSome_iff (w : Word) : (decodeCmd w).instr?.isSome = true ↔ w ∈ allInstrs.map encode := by
  rw [List.mem_map]
  constructor
  · intro h
    cases hd : decodeCmd w with
    | cmd i => exact ⟨i, mem_allInstrs i, encode_of_decodeCmd hd⟩
    | illegal why =>
      rw [hd] at h
      cases h
  · rintro ⟨i, -, rfl⟩
    rw [decodeCmd_encode]
    rfl

end Machine
end Sys2Proof
end

section
/-! SUPPORT. Host scripts, line by line, and the step of the line `WR IN_A, OUT` (30_encoding.md R80). -/

namespace Sys2Proof
namespace Machine

theorem inputs_wr_inA (text : String) :
    (ScriptLine.wr "IN_A" (.chars text)).inputs? = (writeChars? .inA text).map fun a => [a] := rfl

theorem inputs_wr_inB (text : String) :
    (ScriptLine.wr "IN_B" (.chars text)).inputs? = (writeChars? .inB text).map fun a => [a] := rfl

theorem inputs_cmd {m : String} {t : Bool} {i : Instr} (h : commandOfMnemonic? m t = some i) :
    (ScriptLine.cmd m t).inputs? = some [issue i] := by
  rw [ScriptLine.inputs?, h]
  rfl

/-- An operand line and a command line stand for the write and the command, in this order, or for nothing where the operand
line is ill-formed. -/
theorem script_wr_cmd (text : String) {m : String} {t : Bool} {i : Instr} (h : commandOfMnemonic? m t = some i) :
    scriptInputs? [.wr "IN_A" (.chars text), .cmd m t] = writeThenIssue? text i := by
  simp only [scriptInputs?, inputs_wr_inA, inputs_cmd h, writeThenIssue?]
  cases writeChars? .inA text <;> rfl

/-- A copy of a symbol register into IN_A stores what the host read there, where MAXLEN allows (30_encoding.md R80). -/
theorem step_copy_inA {s : State} {rest : List Input} {r : Reg} {S : Syms} (hr : s.hostRead r = .syms S)
    (hS : withinMaxLen s.maxLen S.length = true) (h : s.inputs = .copy 2 r.number :: rest) :
    step s = .next { s with inA := S, inputs := rest, history := .readBack r (.syms S) :: s.history } := by
  rw [step_input h, access_copy, State.noteRead, hostRead_with_inputs_history s rest s.history, hr]
  exact congrArg runPort (if_pos hS)

end Machine
end Sys2Proof
end

section
/-! PROOFS. The statements of 30_encoding.md, each assembled from the lemmas above. -/

namespace Sys2Proof
namespace Machine

/-- Settles O2: the fields of a word in its arithmetic, the case analysis on them, and the legal words as those of the
instructions. -/
theorem decodeCmdIsTheTable : Obligations.DecodeCmdIsTheTable := by
  intro w
  constructor
  · rw [decodeCmd, decodeFields_instr, unpack_op_toNat, unpack_t]
    simp only [unpack_rsvd_ne_zero]
    rfl
  · rw [decodeCmd_isSome_iff]
    have hwords : allInstrs.map encode = [0x01, 0x02, 0x12, 0x03, 0x13, 0x04, 0x05, 0x06] := by decide
    rw [hwords]

/-- Settles O51: the copy of OUT is a write of what the host read there. -/
theorem copyOutIntoOperand : Obligations.CopyOutIntoOperand := by
  intro s rest hs hS
  exact step_copy_inA (r := .out) rfl hS hs

/-- Settles O60: each expansion writes its operands and issues the command its mnemonic names. -/
theorem pseudoInstructionsExpand : Obligations.PseudoInstructionsExpand := by
  refine ⟨fun gen iv => ?_, fun t d => (script_wr_cmd d ?_).symm, fun t c => (script_wr_cmd c ?_).symm,
    fun D => (script_wr_cmd D ?_).symm⟩
  · have hcmd : commandOfMnemonic? "CONFIG" false = some .config := by decide
    simp only [scriptInputs?, inputs_wr_inA, inputs_wr_inB, inputs_cmd hcmd]
    rw [ScriptLine.inputs?]
    cases writeChars? .inA gen <;> cases writeChars? .inB iv <;> rfl
  · cases t <;> decide
  · cases t <;> decide
  · decide

end Machine
end Sys2Proof
end

section
/-! SUPPORT. The polynomial reading of bit strings (00_scope.md R7): concatenation, zeros, XOR, degree, and that strings
of one length with one polynomial are equal. -/

namespace Sys2Proof
namespace Machine

open Polynomial

@[simp] theorem poly_nil : poly [] = 0 := rfl

theorem poly_cons (b : Bool) (s : Bits) : poly (b :: s) = (if b then X ^ s.length else 0) + poly s := rfl

@[simp] theorem poly_singleton (b : Bool) : poly [b] = if b then 1 else 0 := by
  simp [poly_cons]

/-- A string in front stands at higher powers. -/
theorem poly_append (a s : Bits) : poly (a ++ s) = poly a * X ^ s.length + poly s := by
  induction a with
  | nil => simp
  | cons b a ih =>
    rw [List.cons_append, poly_cons, poly_cons, ih, List.length_append]
    cases b
    · simp
    · simp only [if_true]
      ring

@[simp] theorem poly_zeros (n : Nat) : poly (zeros n) = 0 := by
  induction n with
  | zero => rfl
  | succ n ih =>
    have hz : zeros (n + 1) = false :: zeros n := rfl
    simp [hz, poly_cons, ih]

/-- XOR is addition of polynomials over GF(2) (40_divider.md R111). -/
theorem poly_xorBits {a s : Bits} (h : a.length = s.length) : poly (xorBits a s) = poly a + poly s := by
  induction a generalizing s with
  | nil =>
    obtain rfl := List.length_eq_zero_iff.1 h.symm
    simp [xorBits]
  | cons b a ih =>
    cases s with
    | nil => cases h
    | cons c s =>
      have hl : a.length = s.length := by simpa using h
      have hx : xorBits (b :: a) (c :: s) = (b != c) :: xorBits a s := rfl
      rw [hx, poly_cons, poly_cons, poly_cons, ih hl, length_xorBits, hl, Nat.min_self]
      cases b <;> cases c
      · simp
      · simp [add_left_comm]
      · simp [add_assoc]
      · have hX : (X ^ s.length + X ^ s.length : (ZMod 2)[X]) = 0 := CharTwo.add_self_eq_zero _
        simp only [bne_self_eq_false, Bool.false_eq_true, if_false, if_true]
        linear_combination -hX

/-- A leading 0 does not count. -/
theorem poly_drop_one {s : Bits} (h : bitAt s 0 = false) : poly (s.drop 1) = poly s := by
  cases s with
  | nil => rfl
  | cons b s =>
    obtain rfl : b = false := h
    simp [poly_cons]

theorem degree_poly_lt (s : Bits) : (poly s).degree < s.length := by
  induction s with
  | nil => simp
  | cons b s ih =>
    have hlt : ((s.length : Nat) : WithBot Nat) < ((b :: s).length : Nat) := by
      exact_mod_cast Nat.lt_succ_self s.length
    rw [poly_cons]
    refine (degree_add_le _ _).trans_lt (max_lt ?_ (ih.trans hlt))
    cases b
    · simp
    · exact (degree_X_pow_le _).trans_lt hlt

/-- The first bit is the coefficient of the highest power. -/
theorem coeff_poly_cons (b : Bool) (s : Bits) : (poly (b :: s)).coeff s.length = if b then 1 else 0 := by
  rw [poly_cons, coeff_add, coeff_eq_zero_of_degree_lt (degree_poly_lt s), add_zero]
  cases b <;> simp

/-- Strings of one length with one polynomial are equal. -/
theorem poly_injective {a s : Bits} (hl : a.length = s.length) (h : poly a = poly s) : a = s := by
  induction a generalizing s with
  | nil => exact (List.length_eq_zero_iff.1 hl.symm).symm
  | cons b a ih =>
    cases s with
    | nil => cases hl
    | cons c s =>
      have hl' : a.length = s.length := by simpa using hl
      have hbc : b = c := by
        have hc := coeff_poly_cons b a
        rw [h, hl', coeff_poly_cons] at hc
        cases b <;> cases c <;> simp at hc ⊢
      subst hbc
      rw [poly_cons, poly_cons, hl'] at h
      rw [ih hl' (add_left_cancel h)]

/-- A string of 0s is the zero polynomial, and no other string is. -/
theorem poly_eq_zero_iff {s : Bits} : poly s = 0 ↔ isZero s = true := by
  have hz : isZero s = true ↔ s = zeros s.length := by
    simp [isZero, zeros, List.eq_replicate_iff]
  rw [hz]
  constructor
  · intro h
    exact poly_injective (by simp) (h.trans (poly_zeros _).symm)
  · intro h
    rw [h, poly_zeros]

/-! ### Generators -/

section
variable {G : Bits}

theorem IsGenerator.one_le_length (hG : IsGenerator G) : 1 ≤ G.length := Nat.le_of_succ_le hG.1

theorem IsGenerator.eq_true_cons (hG : IsGenerator G) : ∃ T, G = true :: T := by
  obtain ⟨hl, hb⟩ := hG
  cases G with
  | nil => cases hb
  | cons b T =>
    obtain rfl : b = true := hb
    exact ⟨T, rfl⟩

theorem IsGenerator.monic (hG : IsGenerator G) : (poly G).Monic := by
  obtain ⟨T, rfl⟩ := hG.eq_true_cons
  exact monic_X_pow_add (degree_poly_lt T)

/-- A string of g - 1 bits is of lower degree than the generator. -/
theorem IsGenerator.degree_poly_lt_degree (hG : IsGenerator G) {s : Bits} (hs : s.length = G.length - 1) :
    (poly s).degree < (poly G).degree := by
  obtain ⟨T, rfl⟩ := hG.eq_true_cons
  have hT : (poly T).degree < (X ^ T.length : (ZMod 2)[X]).degree := by
    rw [degree_X_pow]
    exact degree_poly_lt T
  rw [poly_cons, if_pos rfl, degree_add_eq_left_of_degree_lt hT, degree_X_pow]
  have hsT : s.length = T.length := hs
  exact hsT ▸ degree_poly_lt s

end

end Machine
end Sys2Proof
end

section
/-! SUPPORT. What the divider computes (40_divider.md R103 to R108). After k refilling steps the quotient so far and the
register stand for the first g + k bits of the dividend:
`poly(take(D, g + k)) = poly(DIV.Q) * x * poly(G) + poly(DIV.R)`. -/

namespace Sys2Proof
namespace Machine

open Polynomial

variable {D G : Bits} {k m : Nat} {d : Div}

theorem bitAt_xorBits_zero (a s : Bits) (h : a.length = s.length) :
    bitAt (xorBits a s) 0 = (bitAt a 0 != bitAt s 0) := by
  cases a <;> cases s
  · rfl
  · cases h
  · cases h
  · rfl

theorem step_t_eq_subtract_t (D G : Bits) (k : Nat) (d : Div) : (d.step D G k).t = (d.subtract G k).t := by
  rw [step_t, subtract_t]

/-! ### One step -/

/-- The conditional XOR clears the leading bit (40_divider.md R104). -/
theorem bitAt_subtract_t (hG : IsGenerator G) (h : d.r.length = G.length) (k : Nat) :
    bitAt (d.subtract G k).t 0 = false := by
  rw [subtract_t]
  cases hq : bitAt d.r 0
  · rw [if_neg Bool.false_ne_true, bitAt_xorBits_zero _ _ (by simp [h]), hq, bitAt_zeros]
    rfl
  · rw [if_pos rfl, bitAt_xorBits_zero _ _ h, hq, hG.2]
    rfl

/-- The XOR result without its leading slot is the register, less the generator where the quotient bit is 1. -/
theorem poly_subtract_remainder (hG : IsGenerator G) (h : d.r.length = G.length) (k : Nat) :
    poly (d.subtract G k).remainder = poly d.r + if bitAt d.r 0 then poly G else 0 := by
  rw [Div.remainder, poly_drop_one (bitAt_subtract_t hG h k), subtract_t]
  cases bitAt d.r 0
  · simp [poly_xorBits, h]
  · simp [poly_xorBits, h]

/-- The quotient bit and the XOR keep the value that quotient and register stand for. -/
theorem subtract_keeps_value (hG : IsGenerator G) (h : d.r.length = G.length) (k : Nat) :
    poly (d.subtract G k).q * poly G + poly (d.subtract G k).remainder = poly d.q * X * poly G + poly d.r := by
  rw [poly_subtract_remainder hG h, subtract_q, poly_append, poly_singleton, List.length_singleton, pow_one]
  cases bitAt d.r 0
  · simp
  · have hG2 : poly G + poly G = 0 := CharTwo.add_self_eq_zero _
    simp only [if_true]
    linear_combination hG2

/-! ### A run -/

/-- A step before the last, in a run, is a subtraction and a refill. -/
theorem steps_succ_refill (d : Div) (hk : k < stepCount D G - 1) :
    Div.steps D G (k + 1) 0 d = ((Div.steps D G k 0 d).subtract G k).refill D := by
  rw [steps_succ_last, Nat.zero_add, step_of_lt _ _ _ _ hk]

/-- DIV.NEXT before step k (40_divider.md R105). -/
theorem steps_load_next (d : Div) (hk : k ≤ stepCount D G - 1) :
    (Div.steps D G k 0 (d.load D G)).next = G.length + k := by
  induction k with
  | zero => rfl
  | succ k ih =>
    rw [steps_succ_refill _ hk, refill_next, subtract_next, ih (Nat.le_of_succ_le hk), Nat.add_assoc]

theorem length_steps_load_r (d : Div) (hG : IsGenerator G) (hn : G.length ≤ D.length) (k : Nat) :
    (Div.steps D G k 0 (d.load D G)).r.length = G.length :=
  length_steps D G 0 _ hG.one_le_length k (length_load_r D G d hn)

/-- One more dividend bit. -/
theorem poly_take_succ (h : m < D.length) :
    poly (D.take (m + 1)) = poly (D.take m) * X + poly [bitAt D m] := by
  have hb : bitAt D m = D[m] := by simp [bitAt, h]
  rw [List.take_succ_eq_append_getElem h, poly_append, hb, List.length_singleton, pow_one]

/-- What quotient and register stand for before step k: the dividend's first g + k bits. -/
theorem steps_load_value (d : Div) (hG : IsGenerator G) (hn : G.length ≤ D.length) (hk : k ≤ stepCount D G - 1) :
    poly (Div.steps D G k 0 (d.load D G)).q * X * poly G + poly (Div.steps D G k 0 (d.load D G)).r =
      poly (D.take (G.length + k)) := by
  induction k with
  | zero => simp
  | succ k ih =>
    have hlen := length_steps_load_r d hG hn k
    have hin : G.length + k < D.length := by
      unfold stepCount at hk
      omega
    have hvalue := (subtract_keeps_value hG hlen k).trans (ih (Nat.le_of_succ_le hk))
    rw [← Nat.add_assoc, poly_take_succ hin, ← hvalue, steps_succ_refill _ hk, refill_q, refill_r, subtract_next,
      steps_load_next d (Nat.le_of_succ_le hk), poly_append, List.length_singleton, pow_one, Div.remainder]
    ring

/-- Division with remainder: the closed form behind every value of `divide` (40_divider.md R108). -/
theorem quotient_mul_add_divide (hG : IsGenerator G) (hn : G.length ≤ D.length) :
    poly (quotient D G) * poly G + poly (divide D G) = poly D := by
  have hlen := length_steps_load_r Div.atReset hG hn (D.length - G.length)
  have hvalue := steps_load_value (k := D.length - G.length) Div.atReset hG hn (Nat.le_refl _)
  rw [Nat.add_sub_cancel' hn, List.take_length] at hvalue
  rw [quotient, divide, run_eq, subtract_keeps_value hG hlen, hvalue]

theorem degree_divide_lt (hG : IsGenerator G) (hn : G.length ≤ D.length) :
    (poly (divide D G)).degree < (poly G).degree :=
  hG.degree_poly_lt_degree (length_divide D G hG.one_le_length hn)

theorem poly_divide (hG : IsGenerator G) (hn : G.length ≤ D.length) :
    poly (quotient D G) = poly D /ₘ poly G ∧ poly (divide D G) = poly D %ₘ poly G := by
  have hvalue : poly (divide D G) + poly G * poly (quotient D G) = poly D := by
    rw [← quotient_mul_add_divide hG hn]
    ring
  obtain ⟨hq, hr⟩ := div_modByMonic_unique _ _ hG.monic ⟨hvalue, degree_divide_lt hG hn⟩
  exact ⟨hq.symm, hr.symm⟩

/-- A string of g - 1 bits that differs from the dividend by a multiple of the generator is the remainder. -/
theorem divide_eq_of_value (hG : IsGenerator G) (hn : G.length ≤ D.length) {S : Bits} (Q : (ZMod 2)[X])
    (hS : S.length = G.length - 1) (h : Q * poly G + poly S = poly D) : divide D G = S := by
  have hvalue : poly S + poly G * Q = poly D := by
    rw [← h]
    ring
  obtain ⟨-, hr⟩ := div_modByMonic_unique _ _ hG.monic ⟨hvalue, hG.degree_poly_lt_degree hS⟩
  refine poly_injective ?_ ((poly_divide hG hn).2.trans hr)
  rw [length_divide D G hG.one_le_length hn, hS]

/-- A divider that shifts on every step is the divider with one more refill at the end (40_divider.md R106). -/
theorem shiftEveryStep_succ (hm : k + m ≤ stepCount D G - 1) (d : Div) :
    shiftEveryStep D G (m + 1) k d = ((Div.steps D G m k d).subtract G (k + m)).refill D := by
  induction m generalizing k d with
  | zero => rfl
  | succ m ih =>
    have hk : k < stepCount D G - 1 := by omega
    rw [shiftEveryStep, ih (by omega), steps_succ, step_of_lt D G k d hk, Nat.succ_add_eq_add_succ]

theorem shiftEveryStep_load (d : Div) :
    shiftEveryStep D G (stepCount D G) 0 (d.load D G) = (d.run D G).refill D := by
  have hm : 0 + (D.length - G.length) ≤ stepCount D G - 1 := (Nat.zero_add _).le
  rw [run_eq, stepCount, shiftEveryStep_succ hm, Nat.zero_add]

/-! ### Particular dividends and generators -/

/-- A dividend as long as the generator takes one step (40_divider.md R110). -/
theorem divide_of_length_eq (hl : D.length = G.length) :
    divide D G = if bitAt D 0 then (xorBits D G).drop 1 else D.drop 1 := by
  have hload : (Div.atReset.load D G).r = D := by simp [← hl]
  have hrun : divide D G = (xorBits D (if bitAt D 0 then G else zeros G.length)).drop 1 := by
    rw [divide, run_eq, hl, Nat.sub_self, steps_zero, Div.remainder, subtract_t, hload]
  rw [hrun]
  cases bitAt D 0
  · have hx : xorBits D (zeros G.length) = D :=
      poly_injective (by simp [hl]) (by rw [poly_xorBits (by simp [hl]), poly_zeros, add_zero])
    rw [if_neg Bool.false_ne_true, if_neg Bool.false_ne_true, hx]
  · rfl

theorem divide_self (hG : IsGenerator G) : divide G G = zeros (G.length - 1) :=
  divide_eq_of_value hG (Nat.le_refl _) 1 (length_zeros _) (by simp)

theorem divide_zeros (hG : IsGenerator G) {n : Nat} (hn : G.length ≤ n) : divide (zeros n) G = zeros (G.length - 1) :=
  divide_eq_of_value hG (by simpa using hn) 0 (length_zeros _) (by simp)

/-- Leading zeros of the dividend do not change the remainder. -/
theorem divide_zeros_append (hG : IsGenerator G) (hn : G.length ≤ D.length) (m : Nat) :
    divide (zeros m ++ D) G = divide D G := by
  refine divide_eq_of_value hG ?_ (poly (quotient D G)) (length_divide D G hG.one_le_length hn) ?_
  · rw [List.length_append]
    exact hn.trans (Nat.le_add_left _ _)
  · rw [quotient_mul_add_divide hG hn, poly_append, poly_zeros, zero_mul, zero_add]

/-- The remainder of an XOR is the XOR of the remainders. -/
theorem divide_xorBits {E : Bits} (hG : IsGenerator G) (hn : G.length ≤ D.length) (hE : E.length = D.length) :
    divide (xorBits D E) G = xorBits (divide D G) (divide E G) := by
  have hnE : G.length ≤ E.length := hE ▸ hn
  have hD := length_divide D G hG.one_le_length hn
  have hE' := length_divide E G hG.one_le_length hnE
  refine divide_eq_of_value hG (by simp [hE, hn]) (poly (quotient D G) + poly (quotient E G)) (by simp [hD, hE']) ?_
  rw [poly_xorBits (hD.trans hE'.symm), poly_xorBits hE.symm, ← quotient_mul_add_divide hG hn,
    ← quotient_mul_add_divide hG hnE]
  ring

theorem isGenerator_true_zeros (h : 1 ≤ m) : IsGenerator (true :: zeros m) :=
  ⟨by simpa using h, rfl⟩

/-- The generator `x^m` leaves the dividend's last m bits (40_divider.md R110). -/
theorem divide_true_zeros (hm : 1 ≤ m) (hn : m < D.length) : divide D (true :: zeros m) = D.drop (D.length - m) := by
  have hlast : (D.drop (D.length - m)).length = m := by
    rw [List.length_drop]
    omega
  have hgen : poly (true :: zeros m) = X ^ m := by simp [poly_cons]
  refine divide_eq_of_value (isGenerator_true_zeros hm) (by simpa using hn) (poly (D.take (D.length - m)))
    (by simpa using hlast) ?_
  have hsplit := poly_append (D.take (D.length - m)) (D.drop (D.length - m))
  rw [List.take_append_drop, hlast] at hsplit
  rw [hgen, hsplit]

/-- The last bit of a string, as the string of what follows the others. -/
theorem drop_length_sub_one (h : 1 ≤ D.length) : D.drop (D.length - 1) = [bitAt D (D.length - 1)] := by
  have hi : D.length - 1 < D.length := by omega
  rw [List.drop_eq_getElem_cons hi, Nat.sub_add_cancel h, List.drop_length]
  simp [bitAt, hi]

/-! ### The divider inside the block -/

theorem run_remainder (D G : Bits) (d : Div) : (d.run D G).remainder = divide D G :=
  congrArg Div.remainder (run_eq_run D G d Div.atReset)

theorem run_q (D G : Bits) (d : Div) : (d.run D G).q = quotient D G :=
  congrArg Div.q (run_eq_run D G d Div.atReset)

/-- The divider is hidden from the host (40_divider.md R109). -/
@[simp] theorem hostRead_runDivider (D G : Bits) (s : State) (r : Reg) :
    (s.runDivider D G).hostRead r = s.hostRead r := by
  cases r <;> rfl

/-- A completion leaves the result registers it was given (10_state.md R23, R25, R26, R30, R33). -/
theorem results_complete (s : State) (c : Code) (e : Bool) (r : Option DWord) (o : Syms) :
    (s.complete c e r o).Results c e r o where
  code := complete_codeField s c e r o
  errDetected := complete_errDetected s c e r o
  timeValid := complete_timeValid s c e r o
  time := complete_time s c e r o
  out := complete_out s c e r o

end Machine
end Sys2Proof
end

section
/-! PROOFS. The statements of 40_divider.md, each assembled from the lemmas above. -/

namespace Sys2Proof
namespace Machine

/-- Settles O6: a step's XOR result is that of its subtraction, which clears the leading bit. -/
theorem leadingBitZeroAfterXor : Obligations.LeadingBitZeroAfterXor := by
  intro D G k d hG h
  rw [step_t_eq_subtract_t]
  exact bitAt_subtract_t hG h k

/-- Settles O7, from DIV.NEXT before step k and the two kinds of step. -/
theorem refillStaysInsideDividend : Obligations.RefillStaysInsideDividend := by
  intro D G k d hG hn hk e f
  have hnext : e.next = G.length + k := steps_load_next d (Nat.le_pred_of_lt hk)
  refine ⟨hnext, fun hlt => ?_, fun hlast => ?_⟩
  · have hf : f = (e.subtract G k).refill D := step_of_lt D G k e hlt
    have hin : G.length + k ≤ D.length - 1 := by
      unfold stepCount at hlt
      omega
    rw [hf, refill_r, refill_t, refill_next, subtract_next, hnext]
    exact ⟨hin, rfl, rfl⟩
  · have hf : f = e.subtract G k := step_of_ge D G k e hlast.ge
    rw [hf, subtract_r, subtract_next]
    exact ⟨rfl, rfl⟩

/-- Settles O9: the divider that shifts on every step ends in the run's result shifted once more, whose first g - 1 bits
are the remainder. -/
theorem shiftOnEveryStepAgrees : Obligations.ShiftOnEveryStepAgrees := by
  intro D G d hG hn
  refine ⟨rfl, length_divide D G hG.one_le_length hn, ?_⟩
  rw [shiftEveryStep_load, refill_r]
  exact List.take_left' (length_run_remainder D G d hG.one_le_length hn)

/-- Settles O10, by the uniqueness of division with remainder by a monic polynomial. -/
theorem divisionIsPolynomialDivision : Obligations.DivisionIsPolynomialDivision := by
  intro D G hG hn
  obtain ⟨hq, hr⟩ := poly_divide hG hn
  refine ⟨hr, length_divide D G hG.one_le_length hn, hq, length_quotient D G, ?_⟩
  rw [← poly_eq_zero_iff, hr, Polynomial.modByMonic_eq_zero_iff_dvd hG.monic]

/-- Settles O12: the XOR of the remainders differs from the XOR of the dividends by a multiple of the generator. -/
theorem divisionIsLinear : Obligations.DivisionIsLinear :=
  fun _ _ _ hG hn hE => divide_xorBits hG hn hE

/-- Settles O13: one step for the first case, the closed form for the others. -/
theorem divisionCornerCases : Obligations.DivisionCornerCases := by
  refine ⟨fun D G _ => divide_of_length_eq, fun G => divide_self, fun G n hG hn => divide_zeros hG hn,
    fun D G m hG hn => divide_zeros_append hG hn m, fun D hD => ?_, fun D g hg hn => ?_⟩
  · have hlast := divide_true_zeros (Nat.le_refl 1) hD
    rwa [drop_length_sub_one (Nat.le_of_succ_le hD)] at hlast
  · exact divide_true_zeros (Nat.le_pred_of_lt hg) (by omega)

/-- Settles O14: DIVIDE runs the divider and completes with its remainder. -/
theorem divideCompletes : Obligations.DivideCompletes := by
  intro s D G hG hD hn
  have hrun := exec_divide_of_generator hG hD hn
  rw [run_remainder] at hrun
  exact ⟨_, hrun, results_complete .., (exec_codec_end (.inl rfl) hrun).sameConfig, exec_kept hrun⟩

/-- Settles O11: a run writes every divider register before reading it, and the host reads none of them. -/
theorem divisionIsPure : Obligations.DivisionIsPure := by
  exact ⟨fun D G d _ _ => ⟨run_remainder D G d, run_q D G d⟩, hostRead_runDivider⟩

end Machine
end Sys2Proof
end

section
/-! SUPPORT. Codewords and errors as polynomials (41_codec.md R128, R133, R134): the initial value followed by a codeword is
a multiple of the generator, and a generator whose last bit is 1 has no factor in common with a power of x. -/

namespace Sys2Proof
namespace Machine

open Polynomial

variable {G V d c D : Bits}

/-! ### Dividends and their divisibility -/

/-- A remainder is zero exactly where the generator divides (40_divider.md R108). -/
theorem isZero_divide_iff (hG : IsGenerator G) (hn : G.length ≤ D.length) :
    isZero (divide D G) = true ↔ poly G ∣ poly D := by
  obtain ⟨-, -, -, -, h⟩ := divisionIsPolynomialDivision D G hG hn
  exact h

theorem divide_eq_zeros (hG : IsGenerator G) (hn : G.length ≤ D.length) (h : poly G ∣ poly D) :
    divide D G = zeros (G.length - 1) := by
  obtain ⟨Q, hQ⟩ := h
  refine divide_eq_of_value hG hn Q (length_zeros _) ?_
  rw [poly_zeros, add_zero, hQ, mul_comm]

/-- A string that is not all zeros has a 1 at some index. -/
theorem isZero_eq_false_iff (s : Bits) : isZero s = false ↔ ∃ i, i < s.length ∧ bitAt s i = true := by
  have hall : isZero s = false ↔ ∃ b ∈ s, b = true := by simp [isZero]
  rw [hall]
  constructor
  · rintro ⟨b, hb, rfl⟩
    obtain ⟨i, hi, hsi⟩ := List.getElem_of_mem hb
    exact ⟨i, hi, by simp [bitAt, hi, hsi]⟩
  · rintro ⟨i, hi, hsi⟩
    exact ⟨s[i], List.getElem_mem hi, by simpa [bitAt, hi] using hsi⟩

/-- The extended dividend stands for the initial value and the dataword, moved up by g - 1 places (41_codec.md R128). -/
theorem poly_extendedDividend (V d : Bits) (g : Nat) :
    poly (extendedDividend V d g) = (poly V * X ^ d.length + poly d) * X ^ (g - 1) := by
  rw [extendedDividend, poly_append, poly_append, poly_zeros, length_zeros, add_zero]

theorem length_le_extendedDividend (hG : IsGenerator G) (hV : V.length = G.length - 1) (d : Bits) :
    G.length ≤ (extendedDividend V d G.length).length := by
  have := hG.1
  rw [length_extendedDividend]
  omega

/-- The divider begins with the initial value and the first bit of the dataword, or a 0 of the padding where it has none
(41_codec.md R125). -/
theorem take_extendedDividend (hG : IsGenerator G) (hV : V.length = G.length - 1) (d : Bits) :
    (extendedDividend V d G.length).take G.length = V ++ [bitAt d 0] := by
  obtain ⟨n, hn⟩ : ∃ n, G.length = n + 2 := ⟨G.length - 2, by have := hG.1; omega⟩
  have hz : zeros (G.length - 1) = false :: zeros n := by
    rw [hn]
    rfl
  have hlen : G.length = V.length + 1 := by omega
  rw [extendedDividend, List.append_assoc, hlen, List.take_length_add_append, ← hlen, hz]
  cases d <;> rfl

/-! ### Codewords -/

/-- The codeword of a dataword: the dataword, then the remainder of the extended dividend (41_codec.md R126).
`exec_encode_codeword` ties it to ENCODE. -/
def codeword (G V d : Bits) : Bits := d ++ divide (extendedDividend V d G.length) G

section
variable (hG : IsGenerator G) (hV : V.length = G.length - 1)
include hG hV

theorem length_codeword (d : Bits) : (codeword G V d).length = d.length + (G.length - 1) := by
  rw [codeword, List.length_append, length_divide _ G hG.one_le_length (length_le_extendedDividend hG hV d)]

/-- The codeword of a non-empty dataword is as long as the generator or longer. -/
theorem length_le_codeword (hd : 1 ≤ d.length) : G.length ≤ (codeword G V d).length := by
  rw [length_codeword hG hV]
  omega

theorem length_le_iv_append_codeword (d : Bits) : G.length ≤ (V ++ codeword G V d).length := by
  have := hG.1
  rw [List.length_append, length_codeword hG hV]
  omega

/-- The first len(c) - (g - 1) bits of a codeword are the dataword (41_codec.md R127, R132). -/
theorem take_codeword (d : Bits) : (codeword G V d).take ((codeword G V d).length - (G.length - 1)) = d := by
  rw [length_codeword hG hV, Nat.add_sub_cancel]
  exact List.take_left' rfl

/-- `poly(rem)` of ENCODE in closed form (41_codec.md R128). -/
theorem poly_encode_remainder (d : Bits) :
    poly (divide (extendedDividend V d G.length) G) =
      ((poly V * X ^ d.length + poly d) * X ^ (G.length - 1)) %ₘ poly G := by
  rw [(poly_divide hG (length_le_extendedDividend hG hV d)).2, poly_extendedDividend]

/-- The generator divides `IVb ++ c`: it stands for the extended dividend with its own remainder added (41_codec.md R133). -/
theorem poly_dvd_iv_append_codeword (d : Bits) : poly G ∣ poly (V ++ codeword G V d) := by
  have hE := length_le_extendedDividend hG hV d
  have hrem := length_divide _ G hG.one_le_length hE
  have hvalue := quotient_mul_add_divide hG hE
  have htwo := CharTwo.add_self_eq_zero (poly (divide (extendedDividend V d G.length) G))
  rw [poly_extendedDividend] at hvalue
  refine ⟨poly (quotient (extendedDividend V d G.length) G), ?_⟩
  rw [codeword, ← List.append_assoc, poly_append, poly_append, hrem]
  linear_combination hvalue.symm + htwo

/-- The codeword alone leaves what the initial value in front of it would take away (41_codec.md R133). -/
theorem poly_codeword_modByMonic (d : Bits) :
    poly (codeword G V d) %ₘ poly G = (poly V * X ^ (d.length + G.length - 1)) %ₘ poly G := by
  have hlen : (codeword G V d).length = d.length + G.length - 1 := by
    have := hG.1
    rw [length_codeword hG hV]
    omega
  refine modByMonic_eq_of_dvd_sub hG.monic ?_
  rw [CharTwo.sub_eq_add, add_comm, ← hlen, ← poly_append]
  exact poly_dvd_iv_append_codeword hG hV d

/-- The generator divides the codeword where it divides the initial value at its place in front (41_codec.md R133). -/
theorem poly_dvd_codeword (d : Bits) (h : poly G ∣ poly V * X ^ (codeword G V d).length) :
    poly G ∣ poly (codeword G V d) := by
  have hall := poly_dvd_iv_append_codeword hG hV d
  rw [poly_append] at hall
  exact (dvd_add_right h).1 hall

theorem poly_dvd_codeword_of_isZero (hz : isZero V = true) (d : Bits) : poly G ∣ poly (codeword G V d) := by
  refine poly_dvd_codeword hG hV d ?_
  rw [poly_eq_zero_iff.2 hz, zero_mul]
  exact dvd_zero _

end

/-! ### Generators whose last bit is 1 -/

/-- The last bit of a string is the constant term of its polynomial. -/
theorem poly_eq_mul_X_add_last {s : Bits} (h : 1 ≤ s.length) :
    poly s = poly (s.take (s.length - 1)) * X + poly [bitAt s (s.length - 1)] := by
  have hsplit := poly_append (s.take (s.length - 1)) (s.drop (s.length - 1))
  rwa [List.take_append_drop, drop_length_sub_one h, List.length_singleton, pow_one] at hsplit

theorem IsGenerator.isCoprime_X (hG : IsGenerator G) (hlast : bitAt G (G.length - 1) = true) :
    IsCoprime (poly G) X := by
  have h := poly_eq_mul_X_add_last hG.one_le_length
  rw [hlast, poly_singleton, if_pos rfl] at h
  exact ⟨1, -poly (G.take (G.length - 1)), by linear_combination h⟩

/-- A non-zero polynomial of fewer than g bits stays non-zero modulo such a generator, at whatever power it stands. -/
theorem IsGenerator.not_dvd_mul_X_pow (hG : IsGenerator G) (hlast : bitAt G (G.length - 1) = true) {s : Bits}
    (hs : s.length = G.length - 1) (hne : isZero s = false) (k : Nat) : ¬ poly G ∣ poly s * X ^ k := by
  intro h
  have hdvd : poly G ∣ poly s := (hG.isCoprime_X hlast).pow_right.dvd_of_dvd_mul_right h
  have hzero := eq_zero_of_dvd_of_degree_lt hdvd (hG.degree_poly_lt_degree hs)
  rw [poly_eq_zero_iff, hne] at hzero
  cases hzero

/-- Such a generator divides no power of x. -/
theorem IsGenerator.not_dvd_X_pow (hG : IsGenerator G) (hlast : bitAt G (G.length - 1) = true) (k : Nat) :
    ¬ poly G ∣ X ^ k := by
  have hlen : (zeros (G.length - 2) ++ [true]).length = G.length - 1 := by
    have := hG.1
    rw [List.length_append, length_zeros, List.length_singleton]
    omega
  have hone : poly (zeros (G.length - 2) ++ [true]) = 1 := by
    rw [poly_append, poly_zeros, zero_mul, zero_add, poly_singleton, if_pos rfl]
  have h := hG.not_dvd_mul_X_pow hlast hlen (by simp [isZero]) k
  rwa [hone, one_mul] at h

/-! ### Generators that are a power of x -/

theorem poly_true_zeros (m : Nat) : poly (true :: zeros m) = X ^ m := by
  simp [poly_cons]

/-- Such a generator divides every codeword: the initial value stands at a higher power of x. -/
theorem poly_dvd_codeword_of_power {m : Nat} (hm : 1 ≤ m) (hV : V.length = (true :: zeros m).length - 1) (d : Bits) :
    poly (true :: zeros m) ∣ poly (codeword (true :: zeros m) V d) := by
  have hG := isGenerator_true_zeros hm
  refine poly_dvd_codeword hG hV d (Dvd.dvd.mul_left ?_ _)
  rw [poly_true_zeros]
  refine pow_dvd_pow X ?_
  rw [length_codeword hG hV, List.length_cons, length_zeros]
  omega

/-! ### Errors in a string -/

@[simp] theorem length_flipAt (c : Bits) (i : Nat) : (flipAt c i).length = c.length := List.length_set

/-- An inverted bit adds the power of x at which it stands (41_codec.md R134). -/
theorem poly_flipAt {i : Nat} (h : i < c.length) : poly (flipAt c i) = poly c + X ^ (c.length - 1 - i) := by
  induction c generalizing i with
  | nil => cases h
  | cons b c ih =>
    cases i with
    | zero =>
      have hflip : flipAt (b :: c) 0 = (!b) :: c := rfl
      have htwo : (X ^ c.length + X ^ c.length : (ZMod 2)[X]) = 0 := CharTwo.add_self_eq_zero _
      rw [hflip, poly_cons, poly_cons, List.length_cons, Nat.add_sub_cancel, Nat.sub_zero]
      cases b
      · simp [add_comm]
      · simp only [Bool.not_true, Bool.false_eq_true, if_false, if_true]
        linear_combination -htwo
    | succ i =>
      have hi : i < c.length := Nat.lt_of_succ_lt_succ h
      have hflip : flipAt (b :: c) (i + 1) = b :: flipAt c i := rfl
      have hexp : (b :: c).length - 1 - (i + 1) = c.length - 1 - i := by
        rw [List.length_cons]
        omega
      rw [hflip, poly_cons, poly_cons, length_flipAt, ih hi, hexp, add_assoc]

section
variable {m n : Nat} (hl : m + G.length + n = c.length)
include hl

theorem length_pattern : (zeros m ++ G ++ zeros n).length = c.length := by
  rw [List.length_append, List.length_append, length_zeros, length_zeros, hl]

theorem length_xorBits_pattern : (xorBits c (zeros m ++ G ++ zeros n)).length = c.length := by
  rw [length_xorBits, length_pattern hl, Nat.min_self]

/-- The generator's own pattern leaves the remainder (41_codec.md R134, 40_divider.md R108). -/
theorem divide_xorBits_pattern (hG : IsGenerator G) :
    divide (xorBits c (zeros m ++ G ++ zeros n)) G = divide c G := by
  have hn : G.length ≤ c.length := by omega
  have hx := hn.trans_eq (length_xorBits_pattern hl).symm
  refine divide_eq_of_value hG hx (poly (quotient c G) + X ^ n) (length_divide c G hG.one_le_length hn) ?_
  rw [poly_xorBits (length_pattern hl).symm, poly_append, poly_append, poly_zeros, poly_zeros, length_zeros,
    ← quotient_mul_add_divide hG hn]
  ring

end

end Machine
end Sys2Proof
end

section
/-! SUPPORT. CONFIG, ENCODE and DECODE in terms of bit strings (41_codec.md R123 to R132), and the commands that follow an
ENCODE. -/

namespace Sys2Proof
namespace Machine

variable {s t : State} {i : Instr} {b : Bool} {d c G V : Bits}

theorem State.Results.codeName {x : Code} {e : Bool} {r : Option DWord} {o : Syms} (h : t.Results x e r o) :
    t.code? = some x := by
  rw [State.code?, h.code, ofBits_toBits]

/-! ### CONFIG -/

/-- CONFIG's check of IN_A and IN_B, as bit strings (41_codec.md R121, R122). -/
theorem validConfig_iff {A B : Syms} :
    (validGen A && validIV B A) = true ↔
      ∃ G V, A = syms G ∧ B = syms V ∧ IsGenerator G ∧ V.length = G.length - 1 := by
  rw [Bool.and_eq_true]
  constructor
  · rintro ⟨hA, hB⟩
    obtain ⟨G, rfl⟩ := validSyms_iff.1 (validSyms_of_validGen hA)
    obtain ⟨V, rfl⟩ := validSyms_iff.1 (validSyms_of_validIV hB)
    exact ⟨G, V, rfl, rfl, isGenerator_of_validGen hA, by simpa using hB⟩
  · rintro ⟨G, V, rfl, rfl, hG, hV⟩
    exact ⟨hG.validGen, by simp [hV]⟩

/-- CONFIG and the presets end in OK with a configuration loaded, or in the one error with none (41_codec.md R124). -/
theorem ConfigEnd.cases (h : ConfigEnd s t) :
    (t.code? = some .ok ∧ t.cfgValid = true) ∨
      (t.code? = some .invalidGeneratorConfig ∧ t.gen = [] ∧ t.iv = [] ∧ t.cfgValid = false) := by
  cases h with
  | loaded => exact .inl (by simp)
  | cleared => exact .inr (by simp)

/-- With no configuration loaded the commands that need one raise NOT_CONFIGURED (60_exceptions.md R168). -/
theorem exec_codec_notConfigured (hi : IsCodec i) (h : s.cfgValid = false) :
    exec i s = .next (s.raise .notConfigured) := by
  rcases hi with rfl | ⟨b, rfl | rfl⟩
  · exact execDivide_notConfigured h
  · exact execEncode_notConfigured b h
  · exact execDecode_notConfigured b h

/-- A word that turns CFG_VALID on is a configuring command that ends in OK (10_state.md R24, 41_codec.md R124). -/
theorem runCommand_loads {w : Word} (h : runCommand w s = .next t) (hs : s.cfgValid = false) (ht : t.cfgValid = true) :
    ∃ i, decodeCmd w = .cmd i ∧ Configures i ∧ t.code? = some .ok := by
  rcases runCommand_cases h with ⟨i, hd, hi⟩ | ⟨-, rfl⟩
  · rcases isCodec_or_configures i with hc | hc
    · have hsame := (exec_codec_end hc hi).sameConfig.cfgValid
      simp [hs, ht] at hsame
    · rcases (exec_config_end hc hi).cases with ⟨hok, -⟩ | ⟨-, -, -, hno⟩
      · exact ⟨i, hd, hc, hok⟩
      · cases ht.symm.trans hno
  · simp [hs] at ht

/-- A step that turns CFG_VALID on writes a word to COMMAND that does. -/
theorem step_loads (hs : s.cfgValid = false) (h : step s = .next t) (ht : t.cfgValid = true) :
    ∃ a rest w, s.inputs = a :: rest ∧ a.commandWord? { s with inputs := rest } = some w ∧
      ∃ i, decodeCmd w = .cmd i ∧ Configures i ∧ t.code? = some .ok := by
  cases hi : s.inputs with
  | nil =>
    cases (step_idle hi).symm.trans h
    cases hs.symm.trans ht
  | cons a rest =>
    by_cases ha : a = .reset
    · subst ha
      cases (step_reset hi).symm.trans h
      simp at ht
    · cases hw : a.commandWord? { s with inputs := rest } with
      | some w =>
        rw [step_command hi hw] at h
        exact ⟨a, rest, w, rfl, hw, runCommand_loads h hs ht⟩
      | none =>
        have hsame : t.cfgValid = s.cfgValid := (step_stored hi hw ha h).sameConfig.cfgValid
        cases ht.symm.trans (hsame.trans hs)

/-! ### ENCODE -/

/-- With a configuration loaded, ENCODE of a bit string completes with its codeword (41_codec.md R126). -/
theorem exec_encode_codeword (b : Bool) (h : s.HasConfig G V) (hd : s.inA = syms d) :
    ∃ t, exec (.encode b) s = .next t ∧ t.Results .ok false (reported b s) (syms (codeword G V d)) := by
  have hrun := exec_encode_of_config b h hd
  rw [run_remainder] at hrun
  exact ⟨_, hrun, results_complete ..⟩

/-- An ENCODE that completes with OK had a configuration and a dataword. -/
theorem hasConfig_of_encode_ok (h : exec (.encode b) s = .next t) (hok : t.code? = some .ok) :
    ∃ d G V, s.HasConfig G V ∧ s.inA = syms d := by
  rcases execEncode_cases b s with ⟨_, e⟩ | ⟨_, _, e⟩ | ⟨_, _, e⟩ | ⟨d, G, V, hc, hd, hG, hV, _⟩
  · cases e.symm.trans h
    simp at hok
  · cases e.symm.trans h
    simp at hok
  · cases e.symm.trans h
  · exact ⟨d, G, V, hasConfig_of_values hc hG hV, hd⟩

/-- ENCODE has two error codes, and DIVIDEND_TOO_SHORT is neither (41_codec.md R125). -/
theorem exec_encode_codes (h : exec (.encode b) s = .next t) :
    t.code? = some .ok ∨ t.code? = some .notConfigured ∨ t.code? = some .invalidBitString := by
  rcases execEncode_cases b s with ⟨_, e⟩ | ⟨_, _, e⟩ | ⟨_, _, e⟩ | ⟨_, _, _, _, _, _, _, e⟩ <;> cases e.symm.trans h
  · exact .inr (.inl (raise_codeName ..))
  · exact .inr (.inr (raise_codeName ..))
  · exact .inl (complete_codeName ..)

/-! ### DECODE -/

/-- With a generator loaded, DECODE of a bit string at least as long completes with it in OUT and the flag (41_codec.md
R129). -/
theorem exec_decode_flag (b : Bool) (h : s.HasGenerator G) (hc : s.inA = syms c) (hl : G.length ≤ c.length) :
    ∃ t, exec (.decode b) s = .next t ∧ t.Results .ok (!isZero (divide c G)) (reported b s) (syms c) := by
  have hrun := exec_decode_of_generator b h hc hl
  rw [run_remainder, syndromeNonZero_eq] at hrun
  exact ⟨_, hrun, results_complete ..⟩

/-- A DECODE that completes with OK had a generator and a codeword at least as long. -/
theorem hasGenerator_of_decode_ok (h : exec (.decode b) s = .next t) (hok : t.code? = some .ok) :
    ∃ c G, s.HasGenerator G ∧ s.inA = syms c ∧ G.length ≤ c.length := by
  rcases execDecode_cases b s with ⟨_, e⟩ | ⟨_, _, e⟩ | ⟨_, _, e⟩ | ⟨_, _, _, _, _, _, e⟩ | ⟨c, G, hv, hc, hG, hl, _⟩
  · cases e.symm.trans h
    simp at hok
  · cases e.symm.trans h
    simp at hok
  · cases e.symm.trans h
  · cases e.symm.trans h
    simp at hok
  · exact ⟨c, G, hasGenerator_of_generator hv hG, hc, hl⟩

theorem State.HasGenerator.unique {G' : Bits} (h : s.HasGenerator G) (h' : s.HasGenerator G') : G = G' :=
  syms_injective (h.gen.symm.trans h'.gen)

/-- What a DECODE that completes with OK leaves, for the loaded generator and the codeword in IN_A. -/
theorem results_of_decode_ok (hg : s.HasGenerator G) (hc : s.inA = syms c) (h : exec (.decode b) s = .next t)
    (hok : t.code? = some .ok) :
    G.length ≤ c.length ∧ t.Results .ok (!isZero (divide c G)) (reported b s) (syms c) := by
  obtain ⟨c', G', hg', hc', hl⟩ := hasGenerator_of_decode_ok h hok
  obtain rfl := hg'.unique hg
  obtain rfl := syms_injective (hc'.symm.trans hc)
  obtain ⟨t', ht', hres⟩ := exec_decode_flag b hg hc hl
  cases ht'.symm.trans h
  exact ⟨hl, hres⟩

/-- DECODE with another IV does the same and keeps that IV (41_codec.md R130). -/
theorem execDecode_with_iv (V : Syms) (h : execDecode b s = .next t) :
    execDecode b { s with iv := V } = .next { t with iv := V } := by
  rcases execDecode_cases b s with ⟨hv, e⟩ | ⟨hv, hI, e⟩ | ⟨_, _, e⟩ | ⟨c, G, hv, hI, hG, hl, e⟩ |
      ⟨c, G, hv, hI, hG, hl, e⟩ <;> cases e.symm.trans h
  · exact execDecode_notConfigured b hv
  · exact execDecode_invalid b hv hI
  · exact execDecode_short b hv hI hG hl
  · rw [execDecode_ok b (s := { s with iv := V }) hv hI hG hl]
    cases b <;> rfl

/-! ### The commands after an ENCODE -/

/-- ENCODE keeps the configuration, and so does a store into IN_A after it. -/
theorem hasConfig_after_encode (h : s.HasConfig G V) (ht : exec (.encode b) s = .next t) (S : Syms) :
    State.HasConfig { t with inA := S } G V := by
  obtain ⟨hgen, hiv, hv⟩ := (exec_codec_end (.inr ⟨b, .inl rfl⟩) ht).sameConfig
  exact ⟨⟨hv.trans h.cfgValid, hgen.trans h.gen, h.isGenerator⟩, hiv.trans h.iv, h.ivLength⟩

theorem out_of_encode (h : s.HasConfig G V) (hd : s.inA = syms d) (ht : exec (.encode b) s = .next t) :
    t.out = syms (codeword G V d) := by
  obtain ⟨t', ht', hres⟩ := exec_encode_codeword b h hd
  cases ht'.symm.trans ht
  exact hres.out

/-- DECODE after ENCODE, of a string long enough: the flag says whether the generator divides it (41_codec.md R129). -/
theorem decode_after_encode (h : s.HasConfig G V) (ht : exec (.encode b) s = .next t) (b' : Bool)
    (hc : G.length ≤ c.length) :
    ∃ u, exec (.decode b') { t with inA := syms c } = .next u ∧ u.code? = some .ok ∧ u.out = syms c ∧
      (u.errDetected = false ↔ poly G ∣ poly c) := by
  have hcfg := hasConfig_after_encode h ht (syms c)
  obtain ⟨u, hu, hres⟩ := exec_decode_flag b' hcfg.toHasGenerator rfl hc
  refine ⟨u, hu, hres.codeName, hres.out, ?_⟩
  rw [hres.errDetected, Bool.not_eq_false', isZero_divide_iff h.isGenerator hc]

end Machine
end Sys2Proof
end

section
/-! PROOFS. The statements of 41_codec.md, each assembled from the lemmas above. -/

namespace Sys2Proof
namespace Machine

/-! ### CONFIG -/

/-- Settles O15: the two strings pass CONFIG's check, and CONFIG loads them. -/
theorem configLoads : Obligations.ConfigLoads := by
  intro s G V hA hB hG hV
  have hrun : exec .config s = .next _ := execConfig_ok (validConfig_iff.2 ⟨G, V, hA, hB, hG, hV⟩)
  refine ⟨_, hrun, results_complete .., ⟨⟨?_, ?_, hG⟩, ?_, hV⟩, exec_kept hrun⟩
  · rw [complete_cfgValid, loadConfig_cfgValid]
  · rw [complete_gen, loadConfig_gen, hA]
  · rw [complete_iv, loadConfig_iv, hB]

/-- Settles O16: any other two strings fail CONFIG's check, and CONFIG clears the configuration. -/
theorem configRejects : Obligations.ConfigRejects := by
  intro s hno
  have hbad := Bool.eq_false_iff.2 (mt validConfig_iff.1 hno)
  have hrun : exec .config s = .next _ := execConfig_bad hbad
  refine ⟨_, hrun, ⟨results_complete .., exec_kept hrun⟩, rfl, rfl, ?_⟩
  rw [raise_cfgValid, clearConfig_cfgValid]

/-- Settles O17, from what the configuring commands can end in and what a step can do to CFG_VALID. -/
theorem failedConfigLeavesNoCodec : Obligations.FailedConfigLeavesNoCodec := by
  refine ⟨fun s t h herr => ?_, fun s i hv hi => ?_, fun s t hs h ht => ?_⟩
  · rcases (exec_config_end (.inl rfl) h).cases with ⟨hok, -⟩ | ⟨-, hcleared⟩
    · cases hok.symm.trans herr
    · exact hcleared
  · exact ⟨_, exec_codec_notConfigured hi hv, raise_codeName .., (raise_cfgValid ..).trans hv⟩
  · obtain ⟨a, rest, w, ha, hw, i, hd, hi, hok⟩ := step_loads hs h ht
    exact ⟨a, rest, w, i, ha, hw, hd, hi, hok⟩

/-! ### ENCODE -/

/-- Settles O21: ENCODE completes with the codeword, and keeps what every codec command keeps. -/
theorem encodeCompletes : Obligations.EncodeCompletes := by
  intro s b d G V h hd
  obtain ⟨t, ht, hres⟩ := exec_encode_codeword b h hd
  exact ⟨t, ht, hres, (exec_codec_end (.inr ⟨b, .inl rfl⟩) ht).sameConfig, exec_kept ht⟩

/-- Settles O22, from the extended dividend's length and first bits, and the codes ENCODE can complete with. -/
theorem extendedDividendIsLongEnough : Obligations.ExtendedDividendIsLongEnough := by
  refine ⟨fun d G V hG hV => ⟨rfl, ?_, length_le_extendedDividend hG hV d, fun x => ?_⟩, fun s t b h => ?_⟩
  · rw [← extendedDividend, length_extendedDividend, hV]
    omega
  · have hr := take_extendedDividend hG hV d
    refine ⟨hr, ?_⟩
    rintro rfl
    exact hr
  · rcases exec_encode_codes h with hc | hc | hc <;> simp [hc]

/-- Settles O23: OUT is the codeword of IN_A. -/
theorem encodeIsSystematic : Obligations.EncodeIsSystematic := by
  intro s t b h hok
  obtain ⟨d, G, V, hcfg, hd⟩ := hasConfig_of_encode_ok h hok
  have hlen := length_codeword hcfg.isGenerator hcfg.ivLength d
  have hg := hcfg.isGenerator.1
  rw [out_of_encode hcfg hd h, hd, hcfg.gen, bits_syms, bits_syms, length_syms, length_syms, length_syms]
  refine ⟨by omega, ?_, rfl⟩
  exact congrArg some (List.take_left' rfl)

/-- Settles O24: what follows the dataword in OUT is the remainder of the extended dividend. -/
theorem encodeRemainderClosedForm : Obligations.EncodeRemainderClosedForm := by
  intro s t b d G V rem h hd ht hout
  have hrem : d ++ rem = codeword G V d := syms_injective (hout.symm.trans (out_of_encode h hd ht))
  obtain rfl := List.append_cancel_left hrem
  have hclosed := poly_encode_remainder h.isGenerator h.ivLength d
  refine ⟨hclosed, fun hz => ?_⟩
  rw [hclosed, poly_eq_zero_iff.2 hz, zero_mul, zero_add]

/-! ### DECODE -/

/-- Settles O25: DECODE completes with the codeword and the flag, and keeps what every codec command keeps. -/
theorem decodeCompletes : Obligations.DecodeCompletes := by
  intro s b c G h hc hl
  obtain ⟨t, ht, hres⟩ := exec_decode_flag b h hc hl
  exact ⟨t, ht, hres, (exec_codec_end (.inr ⟨b, .inr rfl⟩) ht).sameConfig, exec_kept ht⟩

/-- Settles O26: no case of DECODE reads IV, and the flag is that of dividing the codeword itself. -/
theorem decodeNeverReadsIV : Obligations.DecodeNeverReadsIV := by
  refine ⟨fun s t b V h => execDecode_with_iv V h, fun s t b c G hg hc h hok => ?_⟩
  obtain ⟨hl, hres⟩ := results_of_decode_ok hg hc h hok
  rw [hres.errDetected, Bool.not_eq_false', isZero_divide_iff hg.isGenerator hl]

/-- Settles O27: the remainder has g - 1 bits, and it is not all zeros exactly where one of them is 1. -/
theorem errorFlagIsNonZeroRemainder : Obligations.ErrorFlagIsNonZeroRemainder := by
  intro s t b c G hg hc h hok
  obtain ⟨hl, hres⟩ := results_of_decode_ok hg hc h hok
  rw [hres.errDetected, Bool.not_eq_true', isZero_eq_false_iff, length_divide c G hg.isGenerator.one_le_length hl]

/-- Settles O28: DECODE's OUT is IN_A, and an encoded dataword is the head of its codeword. -/
theorem decodeReturnsCodeword : Obligations.DecodeReturnsCodeword := by
  have hreturns : ∀ (s t : State) (b : Bool), exec (.decode b) s = .next t → t.code? = some .ok → t.out = s.inA := by
    intro s t b h hok
    obtain ⟨c, G, hg, hc, -⟩ := hasGenerator_of_decode_ok h hok
    obtain ⟨-, hres⟩ := results_of_decode_ok hg hc h hok
    exact hres.out.trans hc.symm
  refine ⟨hreturns, fun s t u b b' d G V h hd ht hu hok => ?_⟩
  have hout : u.out = syms (codeword G V d) := (hreturns _ _ _ hu hok).trans (out_of_encode h hd ht)
  rw [hout, bits_syms]
  exact congrArg some (take_codeword h.isGenerator h.ivLength d)

/-! ### Round trips -/

/-- Settles O30: the codeword's remainder is that of the initial value moved up to its front. -/
theorem roundTripSyndrome : Obligations.RoundTripSyndrome := by
  intro s t b b' d c G V h hd h1 ht hout
  obtain rfl := syms_injective (hout.symm.trans (out_of_encode h hd ht))
  have hl := length_le_codeword h.isGenerator h.ivLength h1
  have hsyn := poly_codeword_modByMonic h.isGenerator h.ivLength d
  obtain ⟨u, hu, hok, -, herr⟩ := decode_after_encode h ht b' hl
  rw [← Polynomial.modByMonic_eq_zero_iff_dvd h.isGenerator.monic, hsyn] at herr
  exact ⟨(poly_divide h.isGenerator hl).2.trans hsyn, u, hout ▸ hu, hok, herr⟩

/-- Settles O31: with an all-zero initial value the generator divides the codeword. -/
theorem cleanRoundTripZeroIV : Obligations.CleanRoundTripZeroIV := by
  intro s b b' d G V h hd h1 hz
  obtain ⟨t, ht, hres⟩ := exec_encode_codeword b h hd
  have hl := length_le_codeword h.isGenerator h.ivLength h1
  obtain ⟨u, hu, hok, hout, herr⟩ := decode_after_encode h ht b' hl
  rw [← hres.out] at hu hout
  exact ⟨t, u, ht, hu, hok, herr.2 (poly_dvd_codeword_of_isZero h.isGenerator h.ivLength hz d), hout⟩

/-- Settles O32: the syndrome is a non-zero polynomial of lower degree than the generator, times a power of x, which such a
generator does not divide. -/
theorem nonZeroIVReportedIfGeneratorEndsInOne : Obligations.NonZeroIVReportedIfGeneratorEndsInOne := by
  intro s b b' d G V h hd h1 hne hlast
  obtain ⟨t, ht, hres⟩ := exec_encode_codeword b h hd
  obtain ⟨-, u, hu, hok, herr⟩ := roundTripSyndrome s t b b' d _ G V h hd h1 ht hres.out
  rw [Polynomial.modByMonic_eq_zero_iff_dvd h.isGenerator.monic] at herr
  have hnot := h.isGenerator.not_dvd_mul_X_pow hlast h.ivLength hne (d.length + G.length - 1)
  exact ⟨t, u, ht, hu, hok, Bool.eq_true_of_not_eq_false (mt herr.1 hnot)⟩

/-- Settles O33: the generator divides the initial value followed by the codeword. -/
theorem divideOverIVAndCodewordIsZero : Obligations.DivideOverIVAndCodewordIsZero := by
  intro s t b d G V h hd ht
  have hcfg := hasConfig_after_encode h ht (syms V ++ t.out)
  have hD : syms V ++ t.out = syms (V ++ codeword G V d) := by rw [out_of_encode h hd ht, syms_append]
  have hl := length_le_iv_append_codeword h.isGenerator h.ivLength d
  obtain ⟨u, hu, hres, -, -⟩ := divideCompletes _ _ G hcfg.toHasGenerator hD hl
  refine ⟨u, hu, hres.codeName, ?_⟩
  rw [hres.out, divide_eq_zeros h.isGenerator hl (poly_dvd_iv_append_codeword h.isGenerator h.ivLength d)]

/-- Settles O34: the codeword of the empty dataword has g - 1 bits. -/
theorem emptyDatawordDecodesTooShort : Obligations.EmptyDatawordDecodesTooShort := by
  intro s t b b' G V h hnil ht
  have hcfg := hasConfig_after_encode h ht t.out
  have hl : (codeword G V []).length < G.length := by
    have := h.isGenerator.1
    rw [length_codeword h.isGenerator h.ivLength, List.length_nil]
    omega
  have hout : t.out = syms (codeword G V []) := out_of_encode h hnil ht
  exact ⟨_, execDecode_short b' hcfg.cfgValid hout hcfg.generator hl, raise_codeName .., rfl⟩

/-! ### Errors -/

/-- Settles O35: the inverted bit adds its power of x to the codeword, and the two remainders cancel exactly where they are
equal. -/
theorem singleBitSyndrome : Obligations.SingleBitSyndrome := by
  intro s t b b' d c G V i h hd h1 ht hout hi S E
  obtain rfl := syms_injective (hout.symm.trans (out_of_encode h hd ht))
  have hl : G.length ≤ (flipAt (codeword G V d) i).length := by
    rw [length_flipAt]
    exact length_le_codeword h.isGenerator h.ivLength h1
  have hsyn : poly (flipAt (codeword G V d) i) %ₘ poly G = S + E := by
    rw [poly_flipAt hi, Polynomial.add_modByMonic, poly_codeword_modByMonic h.isGenerator h.ivLength]
  obtain ⟨u, hu, hok, -, herr⟩ := decode_after_encode h ht b' hl
  rw [← Polynomial.modByMonic_eq_zero_iff_dvd h.isGenerator.monic, hsyn, CharTwo.add_eq_zero] at herr
  exact ⟨(poly_divide h.isGenerator hl).2.trans hsyn, u, hu, hok, herr.trans eq_comm⟩

/-- Settles O36: the clean syndrome is 0, and such a generator leaves no power of x at 0. -/
theorem singleBitErrorsDetected : Obligations.SingleBitErrorsDetected := by
  intro s b b' d G V h hd h1 hz hlast
  obtain ⟨t, ht, hres⟩ := exec_encode_codeword b h hd
  refine ⟨t, _, ht, hres.out, fun i hi => ?_⟩
  obtain ⟨-, u, hu, hok, herr⟩ := singleBitSyndrome s t b b' d _ G V i h hd h1 ht hres.out hi
  rw [poly_eq_zero_iff.2 hz, zero_mul, Polynomial.zero_modByMonic,
    Polynomial.modByMonic_eq_zero_iff_dvd h.isGenerator.monic] at herr
  exact ⟨u, hu, hok, Bool.eq_true_of_not_eq_false (mt herr.1 (h.isGenerator.not_dvd_X_pow hlast _))⟩

/-- Settles O37: `x^(g-1)` divides the codeword and every power of x outside the last g - 1 places. -/
theorem powerGeneratorMissesDataErrors : Obligations.PowerGeneratorMissesDataErrors := by
  intro s t b b' d c V g i h hd ht hout hi
  obtain rfl := syms_injective (hout.symm.trans (out_of_encode h hd ht))
  have hg : 1 ≤ g - 1 := by simpa using h.isGenerator.1
  have hl : (true :: zeros (g - 1)).length ≤ (flipAt (codeword (true :: zeros (g - 1)) V d) i).length := by
    rw [length_flipAt, List.length_cons, length_zeros]
    omega
  obtain ⟨u, hu, hok, -, herr⟩ := decode_after_encode h ht b' hl
  refine ⟨u, hu, hok, herr.2 ?_⟩
  rw [poly_flipAt (by omega)]
  refine dvd_add (poly_dvd_codeword_of_power hg h.ivLength d) ?_
  rw [poly_true_zeros]
  exact pow_dvd_pow _ (by omega)

/-- Settles O38: the pattern leaves the remainder, and with an all-zero initial value that of the codeword is 0. -/
theorem generatorPatternKeepsRemainder : Obligations.GeneratorPatternKeepsRemainder := by
  refine ⟨fun c G m n hG hl => divide_xorBits_pattern hl hG, fun s t b b' d c G V m n h hz hd ht hout hl => ?_⟩
  obtain rfl := syms_injective (hout.symm.trans (out_of_encode h hd ht))
  have hn : G.length ≤ (codeword G V d).length := by omega
  have hx : G.length ≤ (xorBits (codeword G V d) (zeros m ++ G ++ zeros n)).length :=
    hn.trans_eq (length_xorBits_pattern hl).symm
  obtain ⟨u, hu, hok, -, herr⟩ := decode_after_encode h ht b' hx
  refine ⟨u, hu, hok, herr.2 ?_⟩
  rw [← isZero_divide_iff h.isGenerator hx, divide_xorBits_pattern hl h.isGenerator, isZero_divide_iff h.isGenerator hn]
  exact poly_dvd_codeword_of_isZero h.isGenerator h.ivLength hz d

end Machine
end Sys2Proof
end

section
/-! SUPPORT. The two presets as strings, and what a command that loads a configuration with OK comes to (42_presets.md
R150 to R153). -/

namespace Sys2Proof
namespace Machine

variable {s : State} {i : Instr} {A B : Syms} {G V : Bits}

/-! ### The presets' strings (42_presets.md R152) -/

theorem isGenerator_crc6Gen : IsGenerator crc6Gen := ⟨by decide, by decide⟩

theorem isGenerator_crc16Gen : IsGenerator crc16Gen := ⟨by decide, by decide⟩

theorem syms_crc6Gen : syms crc6Gen = [0x31, 0x30, 0x30, 0x30, 0x30, 0x31, 0x31] := rfl

theorem syms_crc6IV : syms crc6IV = [0x30, 0x30, 0x30, 0x30, 0x30, 0x30] := rfl

theorem syms_crc16Gen :
    syms crc16Gen = [0x31, 0x30, 0x30, 0x30, 0x31, 0x30, 0x30, 0x30, 0x30, 0x30, 0x30, 0x31, 0x30, 0x30, 0x30, 0x30, 0x31] :=
  rfl

theorem syms_crc16IV :
    syms crc16IV = [0x31, 0x31, 0x31, 0x31, 0x31, 0x31, 0x31, 0x31, 0x31, 0x31, 0x31, 0x31, 0x31, 0x31, 0x31, 0x31] :=
  rfl

/-! ### Loading a configuration -/

/-- What a configuring command leaves where it succeeds (41_codec.md R123, 42_presets.md R150, R151). -/
def State.loadedOk (A B : Syms) (s : State) : State := (s.loadConfig A B).complete .ok false none []

theorem exec_cfgCrc6 (s : State) : exec .cfgCrc6 s = .next (s.loadedOk (syms crc6Gen) (syms crc6IV)) := rfl

theorem exec_cfgCrc16 (s : State) : exec .cfgCrc16 s = .next (s.loadedOk (syms crc16Gen) (syms crc16IV)) := rfl

theorem exec_config_loadedOk (hA : s.inA = syms G) (hB : s.inB = syms V) (hG : IsGenerator G)
    (hV : V.length = G.length - 1) : exec .config s = .next (s.loadedOk (syms G) (syms V)) := by
  have hrun := execConfig_ok (validConfig_iff.2 ⟨G, V, hA, hB, hG, hV⟩)
  rwa [hA, hB] at hrun

@[simp] theorem loadedOk_cfgValid : (s.loadedOk A B).cfgValid = true := by simp [State.loadedOk]
@[simp] theorem loadedOk_gen : (s.loadedOk A B).gen = A := rfl
@[simp] theorem loadedOk_iv : (s.loadedOk A B).iv = B := rfl

theorem loadedOk_results : (s.loadedOk A B).Results .ok false none [] := results_complete ..

/-- Loading reads neither operand and writes neither: it commutes with storing both. -/
theorem loadedOk_withOperands (C D : Syms) :
    State.loadedOk A B { s with inA := C, inB := D } = { s.loadedOk A B with inA := C, inB := D } := rfl

/-- A command that loads a configuration completes with OK, that configuration and the operands kept. -/
theorem exec_loads (h : exec i s = .next (s.loadedOk A B)) :
    ∃ t, exec i s = .next t ∧ t.Results .ok false none [] ∧ s.Kept t ∧ t.cfgValid = true ∧ t.gen = A ∧ t.iv = B :=
  ⟨_, h, loadedOk_results, exec_kept h, loadedOk_cfgValid, loadedOk_gen, loadedOk_iv⟩

/-- A command that loads `G` and `V` is a CONFIG with those strings in the operands, the operands left alone. -/
theorem exec_loads_as_config (h : exec i s = .next (s.loadedOk (syms G) (syms V))) (hG : IsGenerator G)
    (hV : V.length = G.length - 1) :
    ∃ t, exec i s = .next t ∧ t.code? = some .ok ∧
      exec .config { s with inA := syms G, inB := syms V } = .next { t with inA := syms G, inB := syms V } ∧
      t.inA = s.inA ∧ t.inB = s.inB := by
  have hconfig := exec_config_loadedOk (s := { s with inA := syms G, inB := syms V }) rfl rfl hG hV
  rw [loadedOk_withOperands] at hconfig
  have hkept := exec_kept h
  exact ⟨_, h, loadedOk_results.codeName, hconfig, hkept.inA, hkept.inB⟩

end Machine
end Sys2Proof
end

section
/-! PROOFS. The statements of 42_presets.md, each assembled from the lemmas above. -/

namespace Sys2Proof
namespace Machine

/-- Settles O18: CFG_CRC6 loads its two strings, whose symbols are written out. -/
theorem cfgCrc6Loads : Obligations.CfgCrc6Loads := by
  intro s
  have h := exec_loads (exec_cfgCrc6 s)
  rwa [syms_crc6Gen, syms_crc6IV] at h

/-- Settles O19: CFG_CRC16 loads its two strings, whose symbols are written out. -/
theorem cfgCrc16Loads : Obligations.CfgCrc16Loads := by
  intro s
  have h := exec_loads (exec_cfgCrc16 s)
  rwa [syms_crc16Gen, syms_crc16IV] at h

/-- Settles O20: each preset's strings pass CONFIG's check, and loading them commutes with storing the operands. -/
theorem presetIsConfigOfItsStrings : Obligations.PresetIsConfigOfItsStrings := by
  intro s
  constructor
  · exact exec_loads_as_config (exec_cfgCrc6 s) isGenerator_crc6Gen rfl
  · exact exec_loads_as_config (exec_cfgCrc16 s) isGenerator_crc16Gen rfl

end Machine
end Sys2Proof
end

section
/-! SUPPORT. Error completion (60_exceptions.md R167), the commands that raise each error of R168, and the outcome of a
command: its code, output and error flag. -/

namespace Sys2Proof
namespace Machine

variable {s s' s₀ t : State} {i : Instr} {b : Bool}

/-! ### Error completion -/

theorem kept_refl (s : State) : s.Kept s := ⟨rfl, rfl, rfl, rfl, rfl⟩

theorem kept_noted (s : State) (a : Input) : s.Kept (s.noted a) := ⟨rfl, rfl, rfl, rfl, rfl⟩

/-- What raises an error, in a state that keeps what `s` holds, completes with it and leaves the configuration. -/
theorem errorCompletion_of_raise {x : Host.Outcome State Fault Refusal} {e : Code} (h : x = .next (s₀.raise e))
    (hk : s.Kept s₀) (hc : s.SameConfig s₀) : ∃ t, x = .next t ∧ ErrorCompletion e s t ∧ s.SameConfig t :=
  ⟨_, h, ⟨results_complete .., hk.complete ..⟩, hc.complete ..⟩

/-- What raises an error in `s` itself. -/
theorem errorCompletion_of_raise_self {x : Host.Outcome State Fault Refusal} {e : Code} (h : x = .next (s.raise e)) :
    ∃ t, x = .next t ∧ ErrorCompletion e s t ∧ s.SameConfig t :=
  errorCompletion_of_raise h (kept_refl s) (sameConfig_refl s)

/-! ### The errors in the order of 60_exceptions.md R168 -/

/-- A word that is no instruction's raises ILLEGAL_COMMAND. -/
theorem runCommand_of_instr_none {w : Word} (s : State) (h : (decodeCmd w).instr? = none) :
    runCommand w s = .next (s.raise .illegalCommand) := by
  cases hd : decodeCmd w with
  | cmd i =>
    rw [hd] at h
    cases h
  | illegal why => exact runCommand_illegal s hd

/-- With a configuration loaded, the commands that need one raise INVALID_BIT_STRING on an invalid symbol in IN_A. -/
theorem exec_codec_invalid (hi : IsCodec i) (h : s.cfgValid = true) (hv : validSyms s.inA = false) :
    exec i s = .next (s.raise .invalidBitString) := by
  rcases hi with rfl | ⟨b, rfl | rfl⟩
  · exact execDivide_invalid h hv
  · exact execEncode_invalid b h hv
  · exact execDecode_invalid b h hv

/-- DECODE and DIVIDE raise DIVIDEND_TOO_SHORT on a bit string shorter than the generator. -/
theorem exec_short {D G : Bits} (hi : i = .divide ∨ ∃ b, i = .decode b) (hg : s.HasGenerator G) (hD : s.inA = syms D)
    (hl : D.length < G.length) : exec i s = .next (s.raise .dividendTooShort) := by
  rcases hi with rfl | ⟨b, rfl⟩
  · exact execDivide_short hg.cfgValid hD hg.generator hl
  · exact execDecode_short b hg.cfgValid hD hg.generator hl

/-- CONFIG goes on from every state, with OK or its one error code. -/
theorem exec_config_codes (s : State) :
    ∃ t, exec .config s = .next t ∧ (t.code? = some .ok ∨ t.code? = some .invalidGeneratorConfig) := by
  rcases execConfig_cases s with ⟨_, _, e⟩ | ⟨_, e⟩
  · exact ⟨_, e, .inl (complete_codeName ..)⟩
  · exact ⟨_, e, .inr (raise_codeName ..)⟩

/-! ### The outcome of a command -/

/-- `u` shows the code, output and error flag that `t` shows. -/
structure State.SameOutcome (t u : State) : Prop where
  out : u.out = t.out
  codeField : u.codeField = t.codeField
  errDetected : u.errDetected = t.errDetected

theorem State.SameResults.sameOutcome {t' : State} (h : s.SameResults s' t t') : t.SameOutcome t' :=
  ⟨h.out, h.codeField, h.errDetected⟩

/-- The outcome of a completion is what it is completed with; the state and the timing report have no part in it. -/
theorem sameOutcome_complete (s s' : State) (c : Code) (e : Bool) (r r' : Option DWord) (o : Syms) :
    (s.complete c e r o).SameOutcome (s'.complete c e r' o) := by
  constructor <;> simp

theorem sameOutcome_refl (t : State) : t.SameOutcome t := ⟨rfl, rfl, rfl⟩

/-- ENCODE has the same outcome with and without the timing report (60_exceptions.md R173). -/
theorem execEncode_timing (b' : Bool) (h : execEncode b s = .next t) :
    ∃ u, execEncode b' s = .next u ∧ t.SameOutcome u := by
  rcases execEncode_cases b s with ⟨hc, e⟩ | ⟨hc, hv, e⟩ | ⟨_, _, e⟩ | ⟨d, G, V, hc, hd, hG, hV, e⟩ <;>
    cases e.symm.trans h
  · exact ⟨_, execEncode_notConfigured b' hc, sameOutcome_refl _⟩
  · exact ⟨_, execEncode_invalid b' hc hv, sameOutcome_refl _⟩
  · exact ⟨_, execEncode_ok b' hc hd hG hV, sameOutcome_complete ..⟩

/-- DECODE has the same outcome with and without the timing report (60_exceptions.md R173). -/
theorem execDecode_timing (b' : Bool) (h : execDecode b s = .next t) :
    ∃ u, execDecode b' s = .next u ∧ t.SameOutcome u := by
  rcases execDecode_cases b s with ⟨hc, e⟩ | ⟨hc, hv, e⟩ | ⟨_, _, e⟩ | ⟨c, G, hc, hI, hG, hl, e⟩ |
      ⟨c, G, hc, hI, hG, hl, e⟩ <;> cases e.symm.trans h
  · exact ⟨_, execDecode_notConfigured b' hc, sameOutcome_refl _⟩
  · exact ⟨_, execDecode_invalid b' hc hv, sameOutcome_refl _⟩
  · exact ⟨_, execDecode_short b' hc hI hG hl, sameOutcome_refl _⟩
  · exact ⟨_, execDecode_ok b' hc hI hG hl, sameOutcome_complete ..⟩

/-! ### The same command again (60_exceptions.md R169) -/

/-- Loading the same strings leaves the same outcome and configuration, whatever the state. -/
theorem loadedOk_same (s s' : State) (A B : Syms) :
    (s.loadedOk A B).SameOutcome (s'.loadedOk A B) ∧ (s.loadedOk A B).SameConfig (s'.loadedOk A B) :=
  ⟨sameOutcome_complete .., ⟨rfl, rfl, by simp⟩⟩

/-- CONFIG and the presets read the operands alone: from two states with the same operands they leave the same outcome and
configuration. -/
theorem exec_configures_same (hi : Configures i) (hA : s'.inA = s.inA) (hB : s'.inB = s.inB) (h : exec i s = .next t) :
    ∃ u, exec i s' = .next u ∧ t.SameOutcome u ∧ t.SameConfig u := by
  rcases hi with rfl | rfl | rfl
  · have hcheck : (validGen s'.inA && validIV s'.inB s'.inA) = (validGen s.inA && validIV s.inB s.inA) := by rw [hA, hB]
    rcases execConfig_cases s with ⟨hG, hV, e⟩ | ⟨hbad, e⟩ <;> cases e.symm.trans h
    · refine ⟨_, execConfig_ok (hcheck.trans (by rw [hG, hV]; rfl)), ?_⟩
      rw [hA, hB]
      exact loadedOk_same s s' s.inA s.inB
    · exact ⟨_, execConfig_bad (hcheck.trans hbad), sameOutcome_complete .., ⟨rfl, rfl, by simp⟩⟩
  · cases h
    exact ⟨_, exec_cfgCrc6 s', loadedOk_same s s' _ _⟩
  · cases h
    exact ⟨_, exec_cfgCrc16 s', loadedOk_same s s' _ _⟩

/-- The commands that need a configuration keep it and IN_A, so a second run meets the operands of the first. -/
theorem exec_codec_again (hi : IsCodec i) (h : exec i s = .next t) :
    ∃ u, exec i t = .next u ∧ t.SameOutcome u ∧ t.SameConfig u := by
  obtain ⟨hgen, hiv, hv⟩ := (exec_codec_end hi h).sameConfig
  obtain ⟨u, hu, hsame⟩ := exec_sameResults hi ⟨hgen, hiv, hv, (exec_kept h).inA⟩ h
  exact ⟨u, hu, hsame.sameOutcome, (exec_codec_end hi hu).sameConfig⟩

/-- Every command that goes on goes on again in the state it leaves, to the same outcome and configuration. -/
theorem exec_again (h : exec i s = .next t) : ∃ u, exec i t = .next u ∧ t.SameOutcome u ∧ t.SameConfig u := by
  rcases isCodec_or_configures i with hi | hi
  · exact exec_codec_again hi h
  · have hkept := exec_kept h
    exact exec_configures_same hi hkept.inA hkept.inB h

end Machine
end Sys2Proof
end

section
/-! SUPPORT. Where a step can end (60_exceptions.md R160, R170): from the invariant only a refused access stops the machine,
and an admitted access is not refused. -/

namespace Sys2Proof
namespace Machine

variable {s : State} {a : Input}

/-- From the invariant a step goes on or its access is refused; no step faults. -/
theorem step_goes_on_or_refused (h : s.Inv) :
    (∃ t, step s = .next t) ∨
      ∃ a rest e, s.inputs = a :: rest ∧ State.access { s with inputs := rest } a = .done (.refused e) ∧
        step s = .refused e := by
  cases hs : s.inputs with
  | nil => exact .inl ⟨s, step_idle hs⟩
  | cons a rest =>
    rw [step_input hs]
    rcases access_cases { s with inputs := rest } a with ⟨w, -, e⟩ | ⟨-, e⟩ | ⟨-, -, ⟨t, e, -⟩ | ⟨r, e⟩⟩
    · rw [e]
      exact .inl (runCommand_goes_on ((h.withInputs rest).noted a).config w)
    · exact .inl ⟨_, congrArg runPort e⟩
    · exact .inl ⟨t, congrArg runPort e⟩
    · exact .inr ⟨a, rest, r, rfl, e, congrArg runPort e⟩

/-- A write of the register's own width, within MAXLEN, is not refused (10_state.md R35, 20_memory.md R52). -/
theorem hostWrite_ne_refused {r : Reg} {v : RegValue} (h : writeAllowed s.maxLen r v = true) (x : Refusal) :
    s.hostWrite r.number v ≠ .done (.refused x) := by
  have hv : r.takes v = true := (Bool.and_eq_true_iff.1 h).1
  rw [hostWrite_takes hv]
  rcases hostWriteReg_cases r v hv with ⟨w, -, -, e⟩ | ⟨S, rfl, rfl, e⟩ | ⟨S, rfl, rfl, e⟩ | ⟨-, e⟩
  · rw [e]
    nofun
  · have hS : withinMaxLen s.maxLen S.length = true := h
    rw [e, if_pos hS]
    nofun
  · have hS : withinMaxLen s.maxLen S.length = true := h
    rw [e, if_pos hS]
    nofun
  · rw [e]
    nofun

/-- An admitted access is not refused. -/
theorem access_ne_refused (h : a.admitted s = true) (x : Refusal) : s.access a ≠ .done (.refused x) := by
  cases a with
  | write n v =>
    rcases number_cases n with hn | ⟨r, rfl⟩
    · simp [Input.admitted, ofNumber_eq_none.2 hn] at h
    · simp only [Input.admitted, ofNumber_number] at h
      exact hostWrite_ne_refused h x
  | read n =>
    rcases number_cases n with hn | ⟨r, rfl⟩
    · simp [Input.admitted, ofNumber_eq_none.2 hn] at h
    · rw [access_read]
      nofun
  | copy n m =>
    rcases number_cases n with hn | ⟨d, rfl⟩
    · simp [Input.admitted, ofNumber_eq_none.2 hn] at h
    · rcases number_cases m with hm | ⟨r, rfl⟩
      · simp [Input.admitted, ofNumber_eq_none.2 hm] at h
      · simp only [Input.admitted, ofNumber_number] at h
        rw [access_copy]
        exact hostWrite_ne_refused (s := s.noteRead r) h x
  | reset => nofun

/-- Whether an access is admitted does not depend on the accesses still to come. -/
theorem admitted_with_inputs (s : State) (l : List Input) (a : Input) :
    a.admitted { s with inputs := l } = a.admitted s := by
  cases a with
  | copy n m => simp only [Input.admitted, hostRead_with_inputs_history s l s.history]
  | write n v => rfl
  | read n => rfl
  | reset => rfl

/-- From the invariant a step whose access is admitted goes on. -/
theorem step_admitted (h : s.Inv) (ha : ∀ a rest, s.inputs = a :: rest → a.admitted s = true) :
    ∃ t, step s = .next t := by
  rcases step_goes_on_or_refused h with hgo | ⟨a, rest, e, hs, href, -⟩
  · exact hgo
  · have hadm := (admitted_with_inputs s rest a).trans (ha a rest hs)
    exact absurd href (access_ne_refused hadm e)

end Machine
end Sys2Proof
end

section
/-! PROOFS. The statements of 60_exceptions.md, each assembled from the lemmas above. -/

namespace Sys2Proof
namespace Machine

/-- Settles O5: the step hands the word to the decoder, and an illegal word raises its error in the state that notes the
access. -/
theorem illegalWordCompletes : Obligations.IllegalWordCompletes := by
  intro s a rest w hs hw hd
  rw [step_command hs hw]
  obtain ⟨t, ht, herr, hgen, hiv, hvalid⟩ :=
    errorCompletion_of_raise (runCommand_of_instr_none _ hd) (kept_noted { s with inputs := rest } a) ⟨rfl, rfl, rfl⟩
  exact ⟨t, ht, herr, hgen, hiv, hvalid⟩

/-- Settles O29, one error of the list at a time. -/
theorem errorsInPriorityOrder : Obligations.ErrorsInPriorityOrder := by
  refine ⟨fun s w hd => ?_, fun s i hi => ⟨fun hc => ?_, fun hc hv => ?_⟩, fun s i D G hi hg hD hl => ?_,
    exec_config_codes, fun s => ⟨?_, ?_⟩⟩
  · exact errorCompletion_of_raise_self (runCommand_of_instr_none s hd)
  · exact errorCompletion_of_raise_self (exec_codec_notConfigured hi hc)
  · exact errorCompletion_of_raise_self (exec_codec_invalid hi hc hv)
  · exact errorCompletion_of_raise_self (exec_short hi hg hD hl)
  · exact ⟨_, exec_cfgCrc6 s, loadedOk_results.codeName⟩
  · exact ⟨_, exec_cfgCrc16 s, loadedOk_results.codeName⟩

/-- Settles O41: both commands take the same branch whatever T is, and the report is no part of the outcome. -/
theorem timingReportHasNoEffect : Obligations.TimingReportHasNoEffect := by
  constructor
  · intro s t h
    obtain ⟨u, hu, hout, hcode, herr⟩ := execEncode_timing false h
    exact ⟨u, hu, hout, hcode, herr⟩
  · intro s t h
    obtain ⟨u, hu, hout, hcode, herr⟩ := execDecode_timing false h
    exact ⟨u, hu, hout, hcode, herr⟩

/-- Settles O43: a command finds in the state it leaves the operands and configuration it read, or rewrites the latter. -/
theorem sameCommandAgainGivesSame : Obligations.SameCommandAgainGivesSame := by
  intro s t i h
  obtain ⟨u, hu, ⟨hout, hcode, herr⟩, hcfg⟩ := exec_again h
  exact ⟨u, hu, hcode, hout, herr, hcfg⟩

/-- Settles O57: only refused accesses stop the machine, and a write of a word to COMMAND is admitted. -/
theorem admittedAccessesGoOn : Obligations.AdmittedAccessesGoOn := by
  intro s h
  refine ⟨fun f hf => ?_, step_admitted h, fun w rest hs => step_admitted h fun a l hal => ?_⟩
  · rcases step_goes_on_or_refused h with ⟨t, ht⟩ | ⟨_, _, e, -, -, he⟩
    · cases ht.symm.trans hf
    · cases he.symm.trans hf
  · cases hs.symm.trans hal
    rfl

end Machine
end Sys2Proof
end

section
/-! SUPPORT. Whole runs (70_reset_and_hazards.md R198): a step takes the access it carries out off the list, a well-formed
access is admitted wherever the invariant holds, and so a well-formed script never stops. -/

namespace Sys2Proof
namespace Machine

variable {s t : State} {m : MaxLen}

/-! ### The accesses to come -/

theorem State.Stored.inputs (h : s.Stored t) : t.inputs = s.inputs := by
  rcases h with rfl | ⟨S, _, rfl | rfl⟩ <;> rfl

/-- A step takes one access off the list (20_memory.md R61); with none pending it leaves none. -/
theorem step_inputs (h : step s = .next t) : t.inputs = s.inputs.drop 1 := by
  cases hs : s.inputs with
  | nil =>
    cases (step_idle hs).symm.trans h
    exact hs
  | cons a rest =>
    by_cases ha : a = .reset
    · subst ha
      cases (step_reset hs).symm.trans h
      rfl
    · cases hw : a.commandWord? { s with inputs := rest } with
      | some w =>
        rw [step_command hs hw] at h
        exact (runCommand_kept h).inputs
      | none => exact (step_stored hs hw ha h).inputs

/-! ### Well-formed accesses -/

/-- What a register reads as is of the width of another exactly where the two have one width (20_memory.md R52). -/
theorem takes_hostRead (s : State) (d r : Reg) : d.takes (s.hostRead r) = sameWidth d r := by
  cases d <;> cases r <;> rfl

/-- A value of the register's own width may be written where an operand register gets at most MAXLEN symbols. -/
theorem writeAllowed_of_takes {r : Reg} {v : RegValue} (hv : r.takes v = true)
    (hl : r = .inA ∨ r = .inB → ∀ S, v = .syms S → withinMaxLen m S.length = true) : writeAllowed m r v = true := by
  unfold writeAllowed
  rw [hv, Bool.true_and]
  split
  · exact hl (.inl rfl) _ rfl
  · exact hl (.inr rfl) _ rfl
  · rfl

/-- Only OUT can hold more than MAXLEN symbols (00_scope.md R5, 10_state.md R30). -/
theorem State.CapacityOk.withinMaxLen_hostRead (h : s.CapacityOk) {r : Reg} {S : Syms}
    (hr : r = .out → s.maxLen = .unbounded) (hS : s.hostRead r = .syms S) : withinMaxLen s.maxLen S.length = true := by
  cases r <;> cases hS
  case inA => exact h.inA
  case inB => exact h.inB
  case out =>
    rw [hr rfl]
    rfl
  case gen => exact h.gen
  case iv => exact withinMaxLen_mono (Nat.le_succ _) h.iv

/-- A copy is well formed between two registers of one width, out of OUT into an operand only without a bound. -/
theorem wellFormed_copy {d r : Reg} : (Input.copy d.number r.number).wellFormed m = true ↔
    sameWidth d r = true ∧ (d = .inA ∨ d = .inB → r = .out → m = .unbounded) := by
  have hout : (!(r == .out && (d == .inA || d == .inB)) || m == .unbounded) = true ↔
      (d = .inA ∨ d = .inB → r = .out → m = .unbounded) := by grind
  simp only [Input.wellFormed, ofNumber_number, Bool.and_eq_true, hout]

/-- Within the capacities an access judged well formed before the run is admitted in the state it meets. -/
theorem admitted_of_wellFormed {a : Input} (h : s.CapacityOk) (ha : a.wellFormed s.maxLen = true) :
    a.admitted s = true := by
  cases a with
  | write n v => exact ha
  | read n => exact ha
  | copy n k =>
    rcases number_cases n with hn | ⟨d, rfl⟩
    · simp [Input.wellFormed, ofNumber_eq_none.2 hn] at ha
    · rcases number_cases k with hk | ⟨r, rfl⟩
      · simp [Input.wellFormed, ofNumber_eq_none.2 hk] at ha
      · obtain ⟨hw, hout⟩ := wellFormed_copy.1 ha
        simp only [Input.admitted, ofNumber_number]
        exact writeAllowed_of_takes ((takes_hostRead s d r).trans hw) fun hd S hS =>
          h.withinMaxLen_hostRead (hout hd) hS
  | reset => rfl

/-! ### Runs -/

/-- A run of one step more begins with that step. -/
theorem run_succ_of_step (M : Host.Core) {s t : M.State} (k : Nat) (h : M.step s = .next t) :
    M.run (k + 1) s = M.run k t := by
  rw [Host.Core.run, h]

/-- From the invariant a step over well-formed accesses goes on, takes the first of them, and keeps what lets the next step
go on. -/
theorem step_wellFormed (h : s.Inv) (hw : ∀ a ∈ s.inputs, a.wellFormed s.maxLen = true) :
    ∃ t, step s = .next t ∧ t.inputs = s.inputs.drop 1 ∧ t.Inv ∧ ∀ a ∈ t.inputs, a.wellFormed t.maxLen = true := by
  obtain ⟨t, ht⟩ := step_admitted h fun a rest hs =>
    admitted_of_wellFormed h.capacity (hw a (hs ▸ List.mem_cons_self))
  obtain ⟨hinv, hmax⟩ := step_keeps_inv h ht
  have hin := step_inputs ht
  refine ⟨t, ht, hin, hinv, fun a ha => ?_⟩
  rw [hmax]
  exact hw a (List.mem_of_mem_drop (hin ▸ ha))

/-- A well-formed script runs on for any number of steps, one access a step. -/
theorem run_wellFormed (k : Nat) (h : s.Inv) (hw : ∀ a ∈ s.inputs, a.wellFormed s.maxLen = true) :
    ∃ t, Host.Core.run Sys2Proof.core k s = .next t ∧ t.inputs = s.inputs.drop k ∧ t.Inv := by
  induction k generalizing s with
  | zero => exact ⟨s, rfl, rfl, h⟩
  | succ k ih =>
    obtain ⟨t, ht, hin, hinv, hrest⟩ := step_wellFormed h hw
    obtain ⟨u, hu, huin, huinv⟩ := ih hinv hrest
    refine ⟨u, (run_succ_of_step core k ht).trans hu, ?_, huinv⟩
    rw [huin, hin, List.drop_drop, Nat.add_comm]

/-! ### Reset -/

/-- What the host reads after a reset during a run is what it reads after reset (70_reset_and_hazards.md R190). -/
@[simp] theorem applyReset_hostRead (s : State) (r : Reg) :
    s.applyReset.hostRead r = (State.resetOf s.maxLen).hostRead r := by
  cases r <;> rfl

end Machine
end Sys2Proof
end

section
/-! PROOFS. The statements of 70_reset_and_hazards.md, each assembled from the lemmas above. -/

namespace Sys2Proof
namespace Machine

/-- Settles O58, by induction on the number of steps: each step finds its access admitted and keeps the invariant. -/
theorem wellFormedScriptsRunToTheEnd : Obligations.WellFormedScriptsRunToTheEnd := by
  intro s h hw k
  exact run_wellFormed k h hw

/-- Settles O52, register by register; a reset during a run leaves the same registers. -/
theorem resetValues : Obligations.ResetValues := by
  refine ⟨fun m r => by cases r <;> rfl, fun s rest hs => ⟨_, step_reset hs, rfl, rfl, ?_⟩⟩
  exact ⟨applyReset_codeName _, applyReset_cfgValid _, applyReset_errDetected _, applyReset_timeValid _,
    applyReset_hostRead _⟩

/-- Settles O53: the reset values meet the invariant, whatever the accesses to come. -/
theorem resetMeetsInvariant : Obligations.ResetMeetsInvariant := by
  intro m script
  exact inv_reset m _ script _ _

end Machine
end Sys2Proof
end

section
/-! PROOFS. Decoding and encoding as inverse to each other (30_encoding.md R70 to R74). -/

namespace Sys2Proof
namespace Machine

/-- Settles O1: an instruction's word decodes to it, and a word that decodes has its instruction's fields. -/
theorem decodeEncodeInverse : Obligations.DecodeEncodeInverse := by
  constructor
  · intro i _
    exact decodeCmd_encode i
  · intro w i h
    exact encode_of_decodeCmd h

/-- Settles O3: each of the words is, by evaluating `encode`, the word of its command, and so decodes to it. -/
theorem legalWordsDecode : Obligations.LegalWordsDecode :=
  ⟨decodeCmd_encode .config, decodeCmd_encode (.encode false), decodeCmd_encode (.encode true),
    decodeCmd_encode (.decode false), decodeCmd_encode (.decode true), decodeCmd_encode .divide,
    decodeCmd_encode .cfgCrc6, decodeCmd_encode .cfgCrc16⟩

end Machine
end Sys2Proof
end
